-- ==== Sys2Proof/Word.lean ====
section
/-! DEFINITION. The word types of the block (00_scope.md R11, 10_state.md section 1). Every value is unsigned. -/

namespace Sys2Proof

/-- A byte of the byte source: 8 bits, unsigned (R11). -/
abbrev Byte := BitVec 8

/-- A command word `CMD[15:0]` (30_encoding.md R70). -/
abbrev CommandWord := BitVec 16

/-- A 32-bit unsigned word: `RESULT`, `OUT_VALUE`, `FAULT_INFO`, `DIN` (R28 to R30, R70). -/
abbrev Word32 := BitVec 32

/-- The BSR window register, `WINDOW_BITS = 64` bits wide (00_scope.md R5, 10_state.md R20). -/
abbrev Window := BitVec 64

/-- An attribute ID: `ID_WIDTH = 9` bits (00_scope.md R7, 10_state.md R30). -/
abbrev AttrId := BitVec 9

end Sys2Proof
end

