-- ==== Sys2Proof/Syntax.lean ====
section
/-! DEFINITION. The commands of the block: one constructor for each row of spec/opcode_table.json
(30_encoding.md R72). -/

namespace Sys2Proof

/-- A legal command. The width `n` is the 6-bit `N` field taken as it stands (R71): a width outside 1 to 32 is
still a legal command, which raises `PreconditionViolation` (R75). `DIN` and the byte sequence of INIT travel
beside the command word (R70) and so are state of the host port, not syntax. -/
inductive Instr where
  /-- STAT: read status (40_bitstream_reader.md R101). -/
  | stat
  /-- INIT: begin a session (R102). -/
  | init
  /-- READ `n`, `rev`: extract an `n`-bit field (R103). -/
  | read (n : Nat) (rev : Bool)
  /-- BITREV `n`: reverse the low `n` bits of `DIN` (R111). -/
  | bitrev (n : Nat)
  /-- NEXT: decode one record (41_record_decoder.md R133). -/
  | next
  deriving DecidableEq, Repr

end Sys2Proof
end

