-- ==== Sys2Proof/WellFormed.lean ====
section
/-! DEFINITION. Which commands have an encoding: the width of READ and BITREV fits the 6-bit `N` field
(30_encoding.md R71). -/

namespace Sys2Proof

/-- A width that the 6-bit field `CMD[5:0]` can carry: 0 to 63 (R71). -/
def widthEncodable (n : Nat) : Bool := decide (n < 64)

/-- The command can be encoded (R71, R72). -/
def Instr.wellFormed : Instr → Bool
  | .stat => true
  | .init => true
  | .read n _ => widthEncodable n
  | .bitrev n => widthEncodable n
  | .next => true

end Sys2Proof
end

