-- ==== Sys2Proof/Decode.lean ====
section
/-! DEFINITION. Command decoding and encoding (30_encoding.md R70 to R75). -/

namespace Sys2Proof

/-- `OP = CMD[15:12]` (R70). -/
def opField (w : CommandWord) : BitVec 4 := w.extractLsb' 12 4

/-- `RSV = CMD[11:7]`, must be 0 (R70). -/
def rsvField (w : CommandWord) : BitVec 5 := w.extractLsb' 7 5

/-- `R = CMD[6]` (R70, R71). -/
def rField (w : CommandWord) : Bool := w.getLsbD 6

/-- `N = CMD[5:0]` (R70, R71). -/
def nField (w : CommandWord) : BitVec 6 := w.extractLsb' 0 6

/-- Why a command word is illegal (R74). All are one `Illegal` to the machine: they raise the same fault. -/
inductive Illegal where
  /-- `OP` in `0x5..0xF`. -/
  | reservedOpcode
  /-- A nonzero `RSV` field. -/
  | nonzeroReserved
  /-- A nonzero `R` in STAT, INIT, BITREV or NEXT. -/
  | nonzeroReverse
  /-- A nonzero `N` in STAT, INIT or NEXT. -/
  | nonzeroWidth
  deriving DecidableEq, Repr

/-- The name of an illegal word: the first clause of R74 that it meets. -/
def illegalReason (w : CommandWord) : Illegal :=
  if 5 ≤ (opField w).toNat then .reservedOpcode
  else if rsvField w ≠ 0 then .nonzeroReserved
  else if rField w then .nonzeroReverse
  else .nonzeroWidth

/-- `Decode(CMD)` (R73), total on all 65536 words: the row of R72 with `(CMD & mask) = match`, and a word that
matches none is illegal. -/
def decode (w : CommandWord) : Except Illegal Instr :=
  if w &&& 0xFFFF = 0x0000 then .ok .stat
  else if w &&& 0xFFFF = 0x1000 then .ok .init
  else if w &&& 0xFF80 = 0x2000 then .ok (.read (nField w).toNat (rField w))
  else if w &&& 0xFFC0 = 0x3000 then .ok (.bitrev (nField w).toNat)
  else if w &&& 0xFFFF = 0x4000 then .ok .next
  else .error (illegalReason w)

/-- The `OP` value of a command (R72). -/
def Instr.opcode : Instr → BitVec 4
  | .stat => 0x0
  | .init => 0x1
  | .read _ _ => 0x2
  | .bitrev _ => 0x3
  | .next => 0x4

/-- The `R` bit of a command's word: 0 in every command but READ (R70). -/
def Instr.reverseBit : Instr → Bool
  | .read _ rev => rev
  | _ => false

/-- The `N` field of a command's word: 0 in every command but READ and BITREV (R70). -/
def Instr.width : Instr → Nat
  | .read n _ => n
  | .bitrev n => n
  | _ => 0

/-- The command word of a command: `OP`, `RSV = 0`, `R` and `N` side by side (R70, R72). A
command that is not well-formed has no word in the spec; what this answers for one is the model's (its `N` is cut to 6
bits, notes/assumptions/8.md), and the assembler and `FIELD` check the width first. -/
def encode (i : Instr) : CommandWord :=
  i.opcode ++ (0 : BitVec 5) ++ BitVec.ofBool i.reverseBit ++ BitVec.ofNat 6 i.width

/-- The host's question: the command that the decoder reads from an instruction of `nbits` bits `w`. Every
command is one 16-bit word (R70); bits above `nbits` are 0, and a longer pattern is no command. -/
def decodeTableWord (nbits w : Nat) : Option Instr :=
  if w % 2 ^ nbits < 2 ^ 16 then
    match decode (BitVec.ofNat 16 (w % 2 ^ nbits)) with
    | .ok i => some i
    | .error _ => none
  else none

end Sys2Proof
end

