-- ==== Sys2Proof/Machine/Bits.lean ====
section
/-! DEFINITION. The bit primitives of 00_scope.md section 4: `mask`, `rev8` and `bitReverse` (R13, R14). -/

namespace Sys2Proof.Machine

/-- The low `n` bits of `x` in reverse order: bit 0 of `x` goes to bit `n - 1`. -/
def reverseLow : Nat → Nat → Nat
  | 0, _ => 0
  | n + 1, x => reverseLow n (x / 2) ||| ((x % 2) <<< n)

/-- `rev8(b)[i] = b[7 - i]` (R13). -/
def rev8 (b : Byte) : Byte := BitVec.ofNat 8 (reverseLow 8 b.toNat)

/-- `bitReverse(x, n)[i] = x[n - 1 - i]` for `i < n`, and 0 above (R14). Every use checks `1 <= n <= 32` first. -/
def bitReverse (x : Word32) (n : Nat) : Word32 := BitVec.ofNat 32 (reverseLow n x.toNat)

/-- `mask(n) = 2^n - 1`, at the width of the window (00_scope.md section 4). -/
def mask (n : Nat) : Window := BitVec.ofNat 64 (2 ^ n - 1)

end Sys2Proof.Machine
end

