-- ==== Sys2Proof/Config.lean ====
section
/-! DEFINITION. What an implementation fixes: the record of the document's numeric literals (92_eei_decisions.md
D24 asks for one record, so that an audited table can replace it), and the two free values the spec leaves
unspecified. The record's values stand in Machine/Literals.lean. -/

namespace Sys2Proof.Config

/-- The numeric literals of the document (00_scope.md R6 to R10, 41_record_decoder.md R131, R132). -/
structure Literals where
  /-- `MIN_READ_WIDTH` (R6). -/
  minReadWidth : Nat
  /-- `MAX_READ_WIDTH` (R6). -/
  maxReadWidth : Nat
  /-- `ID_WIDTH` (R7). -/
  idWidth : Nat
  /-- `TERMINATOR_ID` (R8). -/
  terminatorId : AttrId
  /-- `WIDTH_TABLE`, one `(ID, width)` entry for each defined ID (R9, R131). -/
  widthTable : List (AttrId × Nat)
  /-- `RESOURCE_IDS` (R9, R132). -/
  resourceIds : List AttrId
  /-- `RESOURCE_SCALE` (R9, R132). -/
  resourceScale : Nat
  /-- `ATTR_BLOCK_OFFSET`, a duty of the host; no command reads it (R10, R193). -/
  attrBlockOffset : Nat
  deriving DecidableEq, Repr

/-- `WINDOW` after an `EndOfStream` fault: a free value, one for each such fault (R110; notes/assumptions/1.md). -/
opaque freeWindow : Nat → Window

/-- `PENDING` after an `EndOfStream` fault: a free value of the element's own range 0 to 64 (R21, R110;
notes/assumptions/1.md). -/
opaque freePending : Nat → Fin 65

end Sys2Proof.Config
end

