-- ==== Sys2Proof/Machine/Literals.lean ====
section
/-! DEFINITION. The values of the document's numeric literals, in one record (92_eei_decisions.md D24), and the
look-ups of the ARD unit's constant data (41_record_decoder.md R131, R132). -/

namespace Sys2Proof.Machine

/-- The document's values (00_scope.md R6 to R10, 41_record_decoder.md R131, R132; unaudited,
notes/assumptions/5.md). -/
def literals : Config.Literals :=
  { minReadWidth := 1
    maxReadWidth := 32
    idWidth := 9
    terminatorId := 0x1FF
    widthTable :=
      [ (0, 10),   -- strength
        (1, 10),   -- energy
        (2, 10),   -- dexterity
        (3, 10),   -- vitality
        (4, 10),   -- unused stat slot
        (5, 8),    -- unused skill slot
        (6, 21),   -- hit points (current)
        (7, 21),   -- hit points (max)
        (8, 21),   -- mana (current)
        (9, 21),   -- mana (max)
        (10, 21),  -- stamina (current)
        (11, 21),  -- stamina (max)
        (12, 7),   -- level
        (13, 32),  -- experience
        (14, 25),  -- gold (carried)
        (15, 25) ] -- gold (stashed)
    resourceIds := [6, 7, 8, 9, 10, 11]
    resourceScale := 256
    attrBlockOffset := 767 }

/-- `WIDTH_TABLE[id]`, or none for an ID that the table lacks (R131). -/
def widthOf (id : AttrId) : Option Nat := literals.widthTable.lookup id

/-- Step 7 of R133: a resource value is divided by `RESOURCE_SCALE`, truncating; no other is scaled (R132). -/
def scaleValue (id : AttrId) (value : Word32) : Word32 :=
  if literals.resourceIds.contains id then BitVec.ofNat 32 (value.toNat / literals.resourceScale) else value

end Sys2Proof.Machine
end

