-- ==== Sys2Proof/Machine/State.lean ====
section
/-! DEFINITION. The state of one instance of the block (10_state.md), with the host's side of its interface, and
the state after reset (70_reset_and_hazards.md R190). -/

namespace Sys2Proof.Machine

/-- The ARD unit's two states (R25). -/
inductive ArdState where
  /-- Initial: records remain to be read. -/
  | reading
  /-- Terminal: the terminator ID was consumed. -/
  | done
  deriving DecidableEq, Repr

/-- The fault causes (R27, 60_exceptions.md R160). Codes 5 to 7 are never produced, so they have no name. -/
inductive Cause where
  /-- 0: no fault. -/
  | noFault
  /-- 1: the byte source ended while more bits were required (R161). -/
  | endOfStream
  /-- 2: NEXT decoded an ID that the width table lacks (R162). -/
  | unknownAttributeID
  /-- 3: READ or BITREV with a width outside 1 to 32 (R163). -/
  | preconditionViolation
  /-- 4: a command word that matches no row of the opcode map (R164). -/
  | illegalCommand
  deriving DecidableEq, Repr

/-- An emitted `(id, value)` pair (R30, R33). -/
structure Pair where
  id : AttrId
  value : Word32
  deriving DecidableEq, Repr

/-- The BSR unit with its byte source: the reader that READ and NEXT share (R20 to R24, R140). -/
structure Reader where
  /-- `WINDOW` (R20). -/
  window : Window
  /-- `PENDING`, a count of bits (R21). -/
  pending : Nat
  /-- `SRC`, the byte sequence bound by INIT (R23). -/
  src : List Byte
  /-- `POS`, the number of bytes already pulled (R24). -/
  pos : Nat
  deriving DecidableEq, Repr

/-- One command as the host issues it: the command word, the data operand `DIN`, and the byte sequence presented on
the byte-source interface (R70). Only BITREV reads `din` and only INIT reads `bytes`. -/
structure HostCommand where
  word : CommandWord
  din : Word32
  bytes : List Byte
  deriving DecidableEq, Repr

/-- All the state of one instance. -/
structure State where
  /-- The BSR unit and its byte source (R20 to R24). -/
  bsr : Reader
  /-- `ARD_STATE` (R25). -/
  ard : ArdState
  /-- `FAULT`, the sticky latch (R26). -/
  fault : Bool
  /-- `CAUSE` (R27). -/
  cause : Cause
  /-- `FAULT_INFO` (R28). -/
  faultInfo : Word32
  /-- `RESULT` (R29). -/
  result : Word32
  /-- `OUT_ID` (R30). -/
  outId : AttrId
  /-- `OUT_VALUE` (R30). -/
  outValue : Word32
  /-- `EMIT` (R31). -/
  emit : Bool
  /-- `OUT_SEQ`, the output port's pairs in the order emitted (R33). -/
  outSeq : List Pair
  /-- Host port: `DIN[31:0]` of the command being performed (R70, R71; notes/assumptions/3.md). -/
  din : Word32
  /-- Host port: the byte sequence `S` presented with the command being performed (R70, R102;
  notes/assumptions/3.md). -/
  presented : List Byte
  /-- Host port: the commands the host has issued and the block has not yet performed, oldest first (R61;
  notes/assumptions/2.md). -/
  commands : List HostCommand
  /-- The MODEL's own counter: how many free values have been used (notes/assumptions/1.md). -/
  freeCount : Nat
  deriving DecidableEq, Repr

/-- Reasons for the machine to stop. There are none, and so no constructor: every error of the spec latches the
sticky fault of R165 and the block goes on (STAT, INIT and refusals still run), so a fault of the spec is a next state.
Safe: nothing the spec gives an effect to stops here. -/
inductive Fault where
  deriving DecidableEq, Repr

/-- Reasons for the model to refuse a command. -/
inductive Refusal where
  /-- The command has no meaning in this model. Raised by no arm: all five commands are modelled (safe). -/
  | notModelled (mnemonic : String)
  deriving DecidableEq, Repr

/-- A reader that has fed nothing and is bound to `bytes` (R102, R190). -/
def Reader.fresh (bytes : List Byte) : Reader :=
  { window := 0, pending := 0, src := bytes, pos := 0 }

/-- The state after reset (R190): every element at the value 10_state.md gives. The host has issued no command, and
the port's operands are at 0 and empty (DESIGN CHOICE, notes/assumptions/3.md); the model's counter starts at 0
(DESIGN CHOICE, notes/assumptions/1.md). -/
def State.reset : State :=
  { bsr := Reader.fresh []
    ard := .reading
    fault := false
    cause := .noFault
    faultInfo := 0
    result := 0
    outId := 0
    outValue := 0
    emit := false
    outSeq := []
    din := 0
    presented := []
    commands := []
    freeCount := 0 }

end Sys2Proof.Machine
end

