-- ==== Sys2Proof/Machine/Operands.lean ====
section
/-! DEFINITION. The operands of a command beside its word (30_encoding.md R70, R71), and the width check that READ
and BITREV share (00_scope.md R6, 60_exceptions.md R163). The fields of the word itself stand in Decode.lean. -/

namespace Sys2Proof.Machine

/-- `x = DIN[31:0]`, the data operand, which only BITREV reads (R70, R71). -/
def State.dataOperand (s : State) : Word32 := s.din

/-- `S`, the byte sequence presented on the byte-source interface, which only INIT reads (R102). -/
def State.sourceOperand (s : State) : List Byte := s.presented

/-- `1 <= n <= 32`, the precondition of `Read` and `bitReverse` (R6). -/
def legalWidth (n : Nat) : Bool := decide (literals.minReadWidth ≤ n) && decide (n ≤ literals.maxReadWidth)

/-- `zext_32(n)`, the information word of a width (R160). -/
def widthInfo (n : Nat) : Word32 := BitVec.ofNat 32 n

end Sys2Proof.Machine
end

