-- ==== Sys2Proof/Machine/Ops.lean ====
section
/-! DEFINITION. The shared operations of the block: taking a command from the host, entering the fault latch and
leaving it, pulling and feeding bytes, `Read`, and emitting a pair. -/

namespace Sys2Proof.Machine

/-! ## The host's commands -/

/-- The oldest command not yet performed, with the state in which it is performed: it is taken off the list and its
operands stand on the host port. None: the block waits (R61, R70, R190). -/
def State.takeCommand (s : State) : Option (CommandWord × State) :=
  match s.commands with
  | [] => none
  | c :: rest => some (c.word, { s with din := c.din, presented := c.bytes, commands := rest })

/-! ## The fault latch -/

/-- `raise Fault(cause, info)`: fault entry (60_exceptions.md R165). The command ends here. -/
def State.raiseFault (s : State) (cause : Cause) (info : Word32) : State :=
  { s with fault := true, cause := cause, faultInfo := info, emit := false }

/-- A refused command writes `EMIT <- 0` and changes nothing else (R166). -/
def State.refuse (s : State) : State := { s with emit := false }

/-- Run `body` unless the fault latch is set, in which case the command is refused (R166, R168). -/
def State.unlessLatched (s : State) (body : State → State) : State :=
  if s.fault then s.refuse else body s

/-- INIT's effect, the only way out of the latch but reset (R102, R167): a fresh session over `bytes`. The model's
free-value counter and the host port are no part of a session and stay. -/
def State.beginSession (s : State) (bytes : List Byte) : State :=
  { s with
    bsr := Reader.fresh bytes
    ard := .reading
    fault := false
    cause := .noFault
    faultInfo := 0
    result := 0
    outId := 0
    outValue := 0
    emit := false
    outSeq := [] }

/-- An illegal command word: `IllegalCommand` with `FAULT_INFO = zext_32(CMD)`, unless the latch refuses it first
(R74, R164, R168). -/
def State.illegalWord (s : State) (w : CommandWord) : State :=
  s.unlessLatched fun s => s.raiseFault .illegalCommand (w.setWidth 32)

/-! ## The byte source and the window -/

/-- `SrcPull()`: the next byte and the advanced source, or none at the end of data (20_memory.md R50). -/
def Reader.pull (r : Reader) : Option (Byte × Reader) :=
  match r.src[r.pos]? with
  | none => none
  | some b => some (b, { r with pos := r.pos + 1 })

/-- The byte as it is fed: reversed when the READ asks for it (R54, R57). -/
def fedByte (rev : Bool) (raw : Byte) : Byte := if rev then rev8 raw else raw

/-- `WINDOW <- ((WINDOW << 8) | b) mod 2^64` (R20, R103). -/
def pushByte (w : Window) (b : Byte) : Window := (w <<< 8) ||| b.setWidth 64

/-- Feed one pulled byte into the window (R103). -/
def Reader.feed (r : Reader) (rev : Bool) (raw : Byte) : Reader :=
  { r with window := pushByte r.window (fedByte rev raw), pending := r.pending + 8 }

/-- How the feed loop of `Read` ends. -/
inductive FillResult where
  /-- `PENDING >= n`. -/
  | filled (r : Reader)
  /-- The source ended while `PENDING < n`. -/
  | exhausted (r : Reader)
  deriving DecidableEq, Repr

/-- `while PENDING < n: feed` (R103 step 1). `fuel` bounds the number of feeds; `fuel = n` is enough, because each
feed adds 8 bits (Laws: `fill_enough`). -/
def Reader.fill (n : Nat) (rev : Bool) : Nat → Reader → FillResult
  | 0, r => .filled r
  | fuel + 1, r =>
    if r.pending < n then
      match r.pull with
      | none => .exhausted r
      | some (raw, r') => Reader.fill n rev fuel (r'.feed rev raw)
    else .filled r

/-- The `n`-bit field below the top of the pending bits (R103 step 2): `(WINDOW >> excess) & mask(n)`. -/
def Reader.field (r : Reader) (n : Nat) : Word32 := ((r.window >>> (r.pending - n)) &&& mask n).setWidth 32

/-- `PENDING <- PENDING - n`; the window is not shrunk (R103 step 3). -/
def Reader.consume (r : Reader) (n : Nat) : Reader := { r with pending := r.pending - n }

/-- After `EndOfStream`, `WINDOW` and `PENDING` are unspecified: each becomes a free value (R110,
notes/assumptions/1.md). -/
def State.loseWindow (s : State) : State :=
  { s with
    bsr := { s.bsr with window := Config.freeWindow s.freeCount, pending := (Config.freePending s.freeCount).val }
    freeCount := s.freeCount + 1 }

/-- How `Read` ends: a value, or a fault that ended the command. -/
inductive ReadResult where
  | value (v : Word32) (s : State)
  | raised (s : State)
  deriving DecidableEq, Repr

/-- The procedure `Read(n, rev)` of R103, which READ and NEXT share. -/
def State.readField (s : State) (n : Nat) (rev : Bool) : ReadResult :=
  if legalWidth n then
    match s.bsr.fill n rev n with
    | .exhausted r => .raised ((State.loseWindow { s with bsr := r }).raiseFault .endOfStream (widthInfo n))
    | .filled r => .value (r.field n) { s with bsr := r.consume n }
  else .raised (s.raiseFault .preconditionViolation (widthInfo n))

/-! ## The output port -/

/-- Step 8 of R133: the pair on the output registers and appended to `OUT_SEQ`. -/
def State.emitPair (s : State) (id : AttrId) (value : Word32) : State :=
  { s with outId := id, outValue := value, emit := true, outSeq := s.outSeq ++ [⟨id, value⟩] }

end Sys2Proof.Machine
end

