-- ==== Sys2Proof/Machine/Ard.lean ====
section
/-! DEFINITION. The meaning of the ARD unit's command: NEXT (41_record_decoder.md R133). -/

namespace Sys2Proof.Machine

/-- Steps 5 to 8 of R133: the value of a record whose ID is `id` and whose width is `w`. -/
def nextValue (id : AttrId) (w : Nat) (s : State) : State :=
  match s.readField w true with
  | .raised s' => s'
  | .value raw s' => s'.emitPair id (scaleValue id (bitReverse raw w))

/-- Steps 3 to 8 of R133, after the ID has been read. -/
def nextRecord (id : AttrId) (s : State) : State :=
  if id = literals.terminatorId then { s with ard := .done, emit := false }
  else
    match widthOf id with
    | none => s.raiseFault .unknownAttributeID (id.setWidth 32)
    | some w => nextValue id w s

/-- NEXT (R133, R137). -/
def execNext (s : State) : Host.Outcome State Fault Refusal :=
  .next <| s.unlessLatched fun s =>
    match s.ard with
    | .done => { s with emit := false }
    | .reading =>
      match s.readField literals.idWidth true with
      | .raised s' => s'
      | .value raw s' => nextRecord ((bitReverse raw literals.idWidth).setWidth 9) s'

end Sys2Proof.Machine
end

