-- ==== Sys2Proof/Machine/Bsr.lean ====
section
/-! DEFINITION. The meanings of the BSR unit's commands: STAT, INIT, READ, BITREV (40_bitstream_reader.md). -/

namespace Sys2Proof.Machine

/-- STAT (R101): `EMIT <- 0` and nothing else, even while the latch is set. -/
def execStat (s : State) : Host.Outcome State Fault Refusal :=
  .next { s with emit := false }

/-- INIT (R102): a fresh session over the presented bytes, even while the latch is set. -/
def execInit (s : State) : Host.Outcome State Fault Refusal :=
  .next (s.beginSession s.sourceOperand)

/-- READ `n`, `rev` (R103): `RESULT <- zext_32(Read(n, rev))`, `EMIT <- 0`. -/
def execRead (n : Nat) (rev : Bool) (s : State) : Host.Outcome State Fault Refusal :=
  .next <| s.unlessLatched fun s =>
    match s.readField n rev with
    | .raised s' => s'
    | .value v s' => { s' with result := v, emit := false }

/-- BITREV `n`, `x` (R111): `RESULT <- zext_32(bitReverse(x, n))`, `EMIT <- 0`. -/
def execBitrev (n : Nat) (s : State) : Host.Outcome State Fault Refusal :=
  .next <| s.unlessLatched fun s =>
    if legalWidth n then { s with result := bitReverse s.dataOperand n, emit := false }
    else s.raiseFault .preconditionViolation (widthInfo n)

end Sys2Proof.Machine
end

