-- ==== Sys2Proof/Machine/Dispatch.lean ====
section
/-! DEFINITION. What each legal command does (60_exceptions.md R168): one arm for each command. -/

namespace Sys2Proof.Machine

def exec (i : Instr) (s : State) : Host.Outcome State Fault Refusal :=
  match i with
  | .stat => Sys2Proof.Machine.execStat s
  | .init => Sys2Proof.Machine.execInit s
  | .read n rev => Sys2Proof.Machine.execRead n rev s
  | .bitrev n => Sys2Proof.Machine.execBitrev n s
  | .next => Sys2Proof.Machine.execNext s

end Sys2Proof.Machine
end

