-- ==== Sys2Proof/Machine/Step.lean ====
section
/-! DEFINITION. One step: the block performs the oldest command the host has issued (60_exceptions.md R168). -/

namespace Sys2Proof.Machine

/-- `Step(CMD, DIN, S)` of R168. With no command issued the block waits: nothing changes (R190,
notes/assumptions/2.md). -/
def step (s : State) : Host.Outcome State Fault Refusal :=
  match s.takeCommand with
  | none => .next s
  | some (w, s') =>
    match decode w with
    | .ok i => exec i s'
    | .error _ => .next (s'.illegalWord w)

/-- `s` with the command word `w` as the next one to perform. The operands that travel beside the word stay as they
are; where no command waits they are 0 and empty (notes/assumptions/2.md). -/
def State.withFetchWord (s : State) (nbits w : Nat) : State :=
  let word : CommandWord := BitVec.ofNat 16 (w % 2 ^ nbits)
  match s.commands with
  | [] => { s with commands := [⟨word, 0, []⟩] }
  | c :: rest => { s with commands := { c with word := word } :: rest }

end Sys2Proof.Machine
end

