-- ==== Sys2Proof/Machine/Asm.lean ====
section
/-! DEFINITION. The assembly syntax (30_encoding.md R76, R77): the commands a line stands for, and the reading of a
line's characters. -/

namespace Sys2Proof.Machine

/-- A line of assembly (R76), the pseudo-instruction `FIELD n` among them (R77). -/
inductive AsmLine where
  | stat
  | init (src : List Byte)
  | read (n : Nat)
  | readRev (n : Nat)
  | bitrev (n : Nat) (x : Word32)
  | next
  | field (n : Nat)
  deriving DecidableEq, Repr

/-- The command `i` with its operands beside it. A caller whose command has no `DIN` or no byte sequence to give passes
0 or the empty list (DESIGN CHOICE, notes/assumptions/17.md). -/
def commandOf (i : Instr) (din : Word32) (bytes : List Byte) : HostCommand := ⟨encode i, din, bytes⟩

/-- The command of a line that stands for one command (R76). None for `FIELD`, which stands for two and whose second
carries a result (Session.lean), and for a width that the `N` field cannot hold (notes/assumptions/8.md). R76 gives only
the words, the bytes of INIT and the `DIN` of BITREV, while R70 lets any command carry a `DIN`. DESIGN CHOICE
(notes/assumptions/17.md): a line that gives no `DIN` carries 0, and one that gives no bytes carries the empty list. -/
def AsmLine.assemble : AsmLine → Option HostCommand
  | .stat => some (commandOf .stat 0 [])
  | .init src => some (commandOf .init 0 src)
  | .read n => if widthEncodable n then some (commandOf (.read n false) 0 []) else none
  | .readRev n => if widthEncodable n then some (commandOf (.read n true) 0 []) else none
  | .bitrev n x => if widthEncodable n then some (commandOf (.bitrev n) x []) else none
  | .next => some (commandOf .next 0 [])
  | .field _ => none

/-! ## Reading a line -/

/-- The value of a digit, in either case. -/
def digitValue (c : Char) : Option Nat :=
  if '0' ≤ c ∧ c ≤ '9' then some (c.toNat - '0'.toNat)
  else if 'a' ≤ c ∧ c ≤ 'f' then some (c.toNat - 'a'.toNat + 10)
  else if 'A' ≤ c ∧ c ≤ 'F' then some (c.toNat - 'A'.toNat + 10)
  else none

/-- The digits of a numeral in base `base`, most significant first, after those already read into `acc`. -/
def readDigits (base : Nat) (acc : Nat) : List Char → Option Nat
  | [] => some acc
  | c :: rest =>
    match digitValue c with
    | some d => if d < base then readDigits base (acc * base + d) rest else none
    | none => none

/-- A number below `bound`: decimal unless prefixed `0x` or `0b` (R76). -/
def readNumber (bound : Nat) (text : List Char) : Option Nat :=
  let value :=
    match text with
    | [] => none
    | ['0', 'x'] => none
    | ['0', 'b'] => none
    | '0' :: 'x' :: rest => readDigits 16 0 rest
    | '0' :: 'b' :: rest => readDigits 2 0 rest
    | _ => readDigits 10 0 text
  value.bind fun v => if v < bound then some v else none

/-- The pieces of a text between its commas. -/
def splitCommas : List Char → List (List Char)
  | [] => [[]]
  | c :: rest =>
    match splitCommas rest with
    | [] => [[c]]
    | piece :: pieces => if c = ',' then [] :: piece :: pieces else (c :: piece) :: pieces

/-- The bytes of `src=[b0, b1, ...]`, read without its spaces. -/
def readSource (text : List Char) : Option (List Byte) :=
  if text = "src=[]".toList then some []
  else if text.take 5 = "src=[".toList ∧ text.getLast? = some ']' then
    (splitCommas (text.drop 5).dropLast).mapM fun piece => (readNumber 256 piece).map (BitVec.ofNat 8)
  else none

/-- A line of assembly read from its characters (R76, R77): the mnemonic up to the first space, then the operands, in
which spaces do not count. -/
def readLine (text : List Char) : Option AsmLine :=
  let name := text.takeWhile (· ≠ ' ')
  let operands := (text.drop name.length).filter (· ≠ ' ')
  if name = "STAT".toList ∧ operands = [] then some .stat
  else if name = "NEXT".toList ∧ operands = [] then some .next
  else if name = "INIT".toList then (readSource operands).map .init
  else if name = "READ".toList then (readNumber 64 operands).map .read
  else if name = "READ.REV".toList then (readNumber 64 operands).map .readRev
  else if name = "FIELD".toList then (readNumber 64 operands).map .field
  else if name = "BITREV".toList then
    match splitCommas operands with
    | [n, x] =>
      match readNumber 64 n, readNumber (2 ^ 32) x with
      | some n, some x => some (.bitrev n (BitVec.ofNat 32 x))
      | _, _ => none
    | _ => none
  else none

end Sys2Proof.Machine
end

