-- ==== Sys2Proof/Machine/Flags.lean ====
section
/-! DEFINITION. The STATUS view and the registers the host reads (10_state.md R27 to R32). The block has no other
flags (R37). -/

namespace Sys2Proof.Machine

/-- The 3-bit `CAUSE` code (R27, R160). -/
def Cause.code : Cause → BitVec 3
  | .noFault => 0
  | .endOfStream => 1
  | .unknownAttributeID => 2
  | .preconditionViolation => 3
  | .illegalCommand => 4

/-- STATUS.DONE: 1 iff `ARD_STATE = Done` (R32). -/
def ArdState.doneBit : ArdState → Bool
  | .reading => false
  | .done => true

/-- `STATUS`: bit 0 DONE, bit 1 FAULT, bit 2 EMIT, bit 3 zero, bits 6 to 4 CAUSE, bit 7 zero (R32). -/
def State.status (s : State) : BitVec 8 :=
  (0 : BitVec 1) ++ s.cause.code ++ (0 : BitVec 1) ++ BitVec.ofBool s.emit ++ BitVec.ofBool s.fault ++
    BitVec.ofBool s.ard.doneBit

/-- What the host reads after a command (R101, R201). `WINDOW`, `PENDING`, `SRC` and `POS` are not among it (R20 to R24). -/
structure HostView where
  status : BitVec 8
  faultInfo : Word32
  result : Word32
  outId : AttrId
  outValue : Word32
  /-- The output port: the pairs emitted in this session (R33). -/
  outSeq : List Pair
  deriving DecidableEq, Repr

/-- The registers and the output port as the host sees them in state `s`. -/
def State.hostView (s : State) : HostView :=
  { status := s.status, faultInfo := s.faultInfo, result := s.result, outId := s.outId,
    outValue := s.outValue, outSeq := s.outSeq }

end Sys2Proof.Machine
end

