-- ==== Sys2Proof/Machine/Session.lean ====
section
/-! DEFINITION. The host's side: issuing commands, the `FIELD` pseudo-instruction (30_encoding.md R77), the session
sequence of 70_reset_and_hazards.md R192, the end of a session (R200), and several instances (60_exceptions.md R172). -/

namespace Sys2Proof.Machine

/-- The host issues a command: it waits behind those already issued (R61). -/
def State.issue (s : State) (c : HostCommand) : State := { s with commands := s.commands ++ [c] }

/-- The host issues one command and the block performs one step. -/
def State.perform (s : State) (c : HostCommand) : Host.Outcome State Fault Refusal := step (s.issue c)

/-- `FIELD n` (R77): `READ.REV n`, then `BITREV n` with the `RESULT` of the first as its `DIN`. R77 does not say what
`FIELD n` is for an `n` above 63, where neither command exists (R71). DESIGN CHOICE (notes/assumptions/8.md): the line is
refused as the assembler refuses those of R76, so the host issues nothing and the state stays. -/
def State.performField (s : State) (n : Nat) : Host.Outcome State Fault Refusal :=
  if widthEncodable n then
    match s.perform (commandOf (.read n true) 0 []) with
    | .next t => t.perform (commandOf (.bitrev n) t.result [])
    | .fault r => .fault r
    | .refused r => .refused r
  else .next s

/-- The source the host presents for the attribute block: `file[767 .. regionEnd)` (20_memory.md R60, R192, R193).
R60 does not say what that slice holds where `regionEnd` lies past the file's end, or where the file or the region ends
before byte 767. DESIGN CHOICE (notes/assumptions/6.md): it holds the bytes of the file that lie in it and no others,
so it is cut off at the file's end, and is empty where there are none. -/
def attrSource (file : List Byte) (regionEnd : Nat) : List Byte :=
  (file.take regionEnd).drop literals.attrBlockOffset

/-- `ATTR_REGION_END`'s default: the end of the loaded file (R60; an open parameter, notes/assumptions/6.md). -/
def defaultRegionEnd (file : List Byte) : Nat := file.length

/-- How a session ended, with its observation (R200). -/
inductive SessionEnd where
  /-- A NEXT set `DONE = 1` with `FAULT = 0`: the pairs of `OUT_SEQ`. -/
  | success (pairs : List Pair)
  /-- A command set `FAULT = 1`: the `CAUSE` code and `FAULT_INFO`. -/
  | failure (cause : BitVec 3) (info : Word32)
  /-- Neither has been reached. -/
  | notEnded
  deriving DecidableEq, Repr

/-- What one step means for the session (R200): it ends where the step latches a fault, or enters Done without one. -/
def sessionEnd (before after : State) : SessionEnd :=
  if before.fault = false ∧ after.fault = true then .failure after.cause.code after.faultInfo
  else if before.ard = .reading ∧ after.ard = .done ∧ after.fault = false then .success after.outSeq
  else .notEnded

/-- The command to perform next is a legal INIT, which begins another session. -/
def State.initIsNext (s : State) : Bool :=
  match s.commands with
  | [] => false
  | c :: _ =>
    match decode c.word with
    | .ok .init => true
    | _ => false

/-- The observation of the session that `s` is in, over at most `fuel` of the commands issued, whatever they are
(R200): its first end. A session that another INIT cuts short has not ended. -/
def observeSession : Nat → State → SessionEnd
  | 0, _ => .notEnded
  | fuel + 1, s =>
    if s.initIsNext then .notEnded
    else
      match step s with
      | .next t =>
        match sessionEnd s t with
        | .success pairs => .success pairs
        | .failure cause info => .failure cause info
        | .notEnded => observeSession fuel t
      | .fault _ => .notEnded
      | .refused _ => .notEnded

/-- Step 3 of R192, for at most `fuel` commands: issue NEXT, read STATUS, take a pair when EMIT is set (added to
`taken`), and stop at FAULT or DONE. Answers the pairs taken from the registers and the session's end. -/
def decodeLoop : Nat → State → List Pair → List Pair × SessionEnd
  | 0, _, taken => (taken, .notEnded)
  | fuel + 1, s, taken =>
    match s.perform (commandOf .next 0 []) with
    | .next t =>
      if t.status.getLsbD 1 then (taken, .failure (t.status.extractLsb' 4 3) t.faultInfo)
      else if t.status.getLsbD 0 then (taken, .success t.outSeq)
      else if t.status.getLsbD 2 then decodeLoop fuel t (taken ++ [⟨t.outId, t.outValue⟩])
      else decodeLoop fuel t taken
    | .fault _ => (taken, .notEnded)
    | .refused _ => (taken, .notEnded)

/-- A decode session over `bytes` (R192): INIT, then NEXT until the session ends, at most `fuel` times. -/
def decodeSession (fuel : Nat) (s : State) (bytes : List Byte) : List Pair × SessionEnd :=
  match s.perform (commandOf .init 0 bytes) with
  | .next t => decodeLoop fuel t []
  | .fault _ => ([], .notEnded)
  | .refused _ => ([], .notEnded)

/-- Several instances of the block (R12, R172): each has a whole state of its own, and nothing else exists. -/
abbrev Instances := List State

/-- One step of instance `k`; an index that names no instance does nothing. -/
def stepInstance (k : Nat) (m : Instances) : Host.Outcome Instances Fault Refusal :=
  match m[k]? with
  | none => .next m
  | some s =>
    match step s with
    | .next t => .next (m.set k t)
    | .fault r => .fault r
    | .refused r => .refused r

end Sys2Proof.Machine
end

