-- ==== Sys2Proof/Safety.lean ====
section
/-! DEFINITION. The terms that statements use: the invariant of the block, states that differ only where nothing can
tell, the bits of the stream (20_memory.md R54 to R56), and a reference decoder of the record stream written from
those bits alone (41_record_decoder.md R131 to R136). No command's meaning uses them. -/

namespace Sys2Proof

open Machine

/-! ## The invariant -/

/-- A pair that the ARD unit can emit: its ID is in the table, and its value fits the width the table gives, eight
bits fewer for a resource (R131, R132). -/
def Machine.Pair.legal (p : Pair) : Prop :=
  ∃ w, widthOf p.id = some w ∧ p.value.toNat < 2 ^ (if p.id ∈ literals.resourceIds then w - 8 else w)

/-- What holds of a state at every command boundary. -/
structure Inv (s : State) : Prop where
  /-- `0 <= PENDING <= 64` (R21, R106). -/
  pending_le_window : s.bsr.pending ≤ 64
  /-- `0 <= PENDING <= 7` unless a fault is latched (R22). -/
  pending_le_seven : s.fault = false → s.bsr.pending ≤ 7
  /-- `PENDING <= 8 * (bytes fed since INIT)` unless a fault is latched (R35). -/
  pending_fed : s.fault = false → s.bsr.pending ≤ 8 * s.bsr.pos
  /-- `0 <= POS <= len(SRC)` (R24). -/
  pos_le : s.bsr.pos ≤ s.bsr.src.length
  /-- `CAUSE` is 0 exactly while the latch is clear (R26, R27). -/
  cause_clear : s.fault = false ↔ s.cause = .noFault
  /-- `FAULT_INFO` is 0 while the latch is clear (R28, R160). -/
  info_clear : s.fault = false → s.faultInfo = 0
  /-- `POS = len(SRC)` after `EndOfStream` (R110). -/
  exhausted : s.cause = .endOfStream → s.bsr.pos = s.bsr.src.length
  /-- A latched fault means that the last command emitted nothing (R165, R166). -/
  emit_clear : s.fault = true → s.emit = false
  /-- The output registers hold the last pair of `OUT_SEQ`, or 0 where there is none (R30, R33). -/
  outputs_last : s.outSeq.getLast?.getD ⟨0, 0⟩ = ⟨s.outId, s.outValue⟩
  /-- `EMIT = 1` only where a pair has been emitted (R31). -/
  emit_pair : s.emit = true → s.outSeq ≠ []
  /-- Every emitted pair is one the table allows (R131, R132). -/
  pairs_legal : ∀ p ∈ s.outSeq, p.legal

/-! ## States that nothing can tell apart -/

/-- Two readers that agree but for the stale bits of the window, those at positions `PENDING` and above (R35). -/
def Machine.Reader.sameLiveBits (r r' : Reader) : Prop :=
  r'.pending = r.pending ∧ r'.src = r.src ∧ r'.pos = r.pos ∧
    ∀ k < r.pending, r'.window.getLsbD k = r.window.getLsbD k

/-- Two states that agree but for the stale bits of the window (R35). -/
def Machine.State.sameLiveBits (s s' : State) : Prop :=
  s.bsr.sameLiveBits s'.bsr ∧ s' = { s with bsr := s'.bsr }

/-- Two states that agree but for `WINDOW` and `PENDING`, and by how many free values they have used (R110). -/
def Machine.State.sameButWindow (s s' : State) : Prop :=
  s' = { s with
    bsr := { s.bsr with window := s'.bsr.window, pending := s'.bsr.pending }, freeCount := s'.freeCount }

/-! ## The stream -/

/-- Bit `q` of the source in the record format's order: `SRC[q div 8][q mod 8]` (R55). -/
def srcBit (src : List Byte) (q : Nat) : Bool := (src[q / 8]?.getD 0).getLsbD (q % 8)

/-- The field of `w` bits at stream position `p`: the sum over `i < w` of `SRC[(p+i) div 8][(p+i) mod 8] * 2^i` (R56). -/
def fieldValue (src : List Byte) (p : Nat) : Nat → Nat
  | 0 => 0
  | w + 1 => fieldValue src p w + (srcBit src (p + w)).toNat * 2 ^ w

/-- Bit `q` of the fed-bit stream of the fed bytes `f`: `f_(q div 8)[7 - (q mod 8)]` (R54). -/
def streamBit (f : List Byte) (q : Nat) : Bool := (f[q / 8]?.getD 0).getLsbD (7 - q % 8)

/-- The `n` stream bits at position `p`, the first one most significant: the sum over `j < n` of
`s_(p+j) * 2^(n-1-j)` (R54). -/
def streamValue (f : List Byte) (p : Nat) : Nat → Nat
  | 0 => 0
  | n + 1 => 2 * streamValue f p n + (streamBit f (p + n)).toNat

/-- The place reached in the fed-bit stream, `T = 8*POS - PENDING` (R36). -/
def Machine.Reader.position (r : Reader) : Nat := 8 * r.pos - r.pending

/-- The reader has fed the bytes `f`, as they were fed: their last `PENDING` bits stand in the window (R20, R54). -/
def Machine.Reader.hasFed (r : Reader) (f : List Byte) : Prop :=
  f.length = r.pos ∧ r.pending ≤ 8 * r.pos ∧
    ∀ k < r.pending, r.window.getLsbD k = streamBit f (8 * r.pos - 1 - k)

/-- The pending bits were fed with reversal (R55): they are the source's bits before position `8*POS`. The state of a
session of NEXTs and READ.REVs alone. -/
def Machine.Reader.pendingReversed (r : Reader) : Prop :=
  r.pending ≤ 7 ∧ r.pending ≤ 8 * r.pos ∧ ∀ k < r.pending, r.window.getLsbD k = srcBit r.src (8 * r.pos - 1 - k)

/-- The number of bytes that hold the first `t` bits of a stream, `ceil(t / 8)` (R36). -/
def bytesFor (t : Nat) : Nat := (t + 7) / 8

/-- The number of bytes a READ of `n` feeds when `pending` bits are pending: `max(0, ceil((n - PENDING) / 8))` (R104). -/
def feedsNeeded (n pending : Nat) : Nat := (n - pending + 7) / 8

/-- The window after `bytes` have been fed into `w`, the first of them first (R103). -/
def pushBytes (rev : Bool) (w : Window) (bytes : List Byte) : Window :=
  bytes.foldl (fun w b => (w <<< 8) ||| (if rev then rev8 b else b).setWidth 64) w

/-- The reader after it has fed its next `k` bytes (R103). -/
def Machine.Reader.feedMany (r : Reader) (rev : Bool) (k : Nat) : Reader :=
  { r with
    window := pushBytes rev r.window ((r.src.drop r.pos).take k)
    pending := r.pending + 8 * k
    pos := r.pos + k }

/-- The bits a reader can still take: those pending and those of the bytes not yet pulled. -/
def Machine.Reader.bitsLeft (r : Reader) : Nat := r.pending + 8 * (r.src.length - r.pos)

/-- The `j`-th bit that READs with `R = 1` take from here on: first the pending bits, the highest first, then the bits
of the source, each byte's least significant first (R54, R55). -/
def Machine.Reader.bitAhead (r : Reader) (j : Nat) : Bool :=
  if j < r.pending then r.window.getLsbD (r.pending - 1 - j) else srcBit r.src (8 * r.pos + (j - r.pending))

/-- The field of `w` bits that begins `offset` bits ahead, its first bit least significant (R56). -/
def Machine.Reader.fieldAhead (r : Reader) (offset : Nat) : Nat → Nat
  | 0 => 0
  | w + 1 => r.fieldAhead offset w + (r.bitAhead (offset + w)).toNat * 2 ^ w

/-! ## The reference decoder -/

/-- The width of an attribute, as the table of R131 lists them. -/
def attrWidth (id : Nat) : Option Nat :=
  if id ≤ 4 then some 10
  else if id = 5 then some 8
  else if id ≤ 11 then some 21
  else if id = 12 then some 7
  else if id = 13 then some 32
  else if id ≤ 15 then some 25
  else none

/-- The value a record emits: a resource value is divided by 256, truncating (R132). -/
def emittedValue (id raw : Nat) : Nat := if 6 ≤ id ∧ id ≤ 11 then raw / 256 else raw

/-- The record stream of `src` from bit `p`, at most `fuel` records: the pairs, and how the decode ends (R56, R133 to
R136). -/
def recordStream (src : List Byte) : Nat → Nat → List Pair → List Pair × SessionEnd
  | 0, _, pairs => (pairs, .notEnded)
  | fuel + 1, p, pairs =>
    let id := fieldValue src p 9
    if 8 * src.length < p + 9 then (pairs, .failure 1 9)
    else if id = 0x1FF then (pairs, .success pairs)
    else
      match attrWidth id with
      | none => (pairs, .failure 2 (BitVec.ofNat 32 id))
      | some w =>
        if 8 * src.length < p + 9 + w then (pairs, .failure 1 (BitVec.ofNat 32 w))
        else
          recordStream src fuel (p + 9 + w)
            (pairs ++ [⟨BitVec.ofNat 9 id, BitVec.ofNat 32 (emittedValue id (fieldValue src (p + 9) w))⟩])

/-- The most NEXTs a session over `bytes` issues before it ends: `floor(L / 2) + 1` (R139). -/
def sessionBound (bytes : List Byte) : Nat := bytes.length / 2 + 1

end Sys2Proof
end

