-- ==== Sys2Proof/Certificates/Slice0/Obligations.lean ====
section
/-! DEFINITION. The statements for the provers. Each docstring names the rule of the spec that the statement
formalises. Where a statement gives a command's whole next state as `{ s with … }`, it also says that the host port's
fields and the model's counter stay: that they are state, and stay, is the model's choice (notes/assumptions/1.md to
3.md). -/

open Sys2Proof Sys2Proof.Machine

/-! ## Decoding and encoding -/

/-- R70 to R72: the encoder writes a word that the decoder reads back, every operand at every encodable value. -/
def Obligations.DecodeInvertsEncode : Prop :=
  ∀ i : Instr, i.wellFormed = true → decode (encode i) = .ok i

/-- R72: no two words stand for one command, and every decoded command is encodable. -/
def Obligations.EncodeInvertsDecode : Prop :=
  ∀ (w : CommandWord) (i : Instr), decode w = .ok i → i.wellFormed = true ∧ encode i = w

/-- R72 and R73: a word is a command exactly where it matches that row of the opcode map; a word that matches no row
is illegal. -/
def Obligations.DecodeIsTheOpcodeMap : Prop :=
  ∀ w : CommandWord,
    (decode w = .ok .stat ↔ w &&& 0xFFFF = 0x0000) ∧
    (decode w = .ok .init ↔ w &&& 0xFFFF = 0x1000) ∧
    (∀ n rev, decode w = .ok (.read n rev) ↔
      w &&& 0xFF80 = 0x2000 ∧ n = (w.extractLsb' 0 6).toNat ∧ rev = w.getLsbD 6) ∧
    (∀ n, decode w = .ok (.bitrev n) ↔ w &&& 0xFFC0 = 0x3000 ∧ n = (w.extractLsb' 0 6).toNat) ∧
    (decode w = .ok .next ↔ w &&& 0xFFFF = 0x4000) ∧
    ((∃ e, decode w = .error e) ↔
      w &&& 0xFFFF ≠ 0x0000 ∧ w &&& 0xFFFF ≠ 0x1000 ∧ w &&& 0xFF80 ≠ 0x2000 ∧ w &&& 0xFFC0 ≠ 0x3000 ∧
        w &&& 0xFFFF ≠ 0x4000)

/-- R74 and R164: which words are illegal, field by field, and what a step does with one while `FAULT = 0`:
only `FAULT`, `CAUSE`, `FAULT_INFO` and `EMIT` change. (Of the host's side, nothing is said here.) -/
def Obligations.IllegalWordRaises : Prop :=
  (∀ w : CommandWord, (∃ e, decode w = .error e) ↔
    (5 ≤ (w.extractLsb' 12 4).toNat ∨ w.extractLsb' 7 5 ≠ 0 ∨
      (w.getLsbD 6 = true ∧ w.extractLsb' 12 4 ≠ 2) ∨
      (w.extractLsb' 0 6 ≠ 0 ∧ w.extractLsb' 12 4 ≠ 2 ∧ w.extractLsb' 12 4 ≠ 3))) ∧
  ∀ (s : State) (c : HostCommand) (rest : List HostCommand) (e : Illegal),
    s.commands = c :: rest → decode c.word = .error e → s.fault = false →
    ∃ t, step s = .next t ∧ t = { s with
      din := t.din, presented := t.presented, commands := t.commands
      fault := true, cause := .illegalCommand, faultInfo := c.word.setWidth 32, emit := false }

/-- R76: the words of the spec's example encodings, and one illegal word for each clause of R74 (the
clauses' names are the model's, notes/assumptions/11.md). -/
def Obligations.ExampleWordsDecode : Prop :=
  decode 0x0000 = .ok .stat ∧ decode 0x1000 = .ok .init ∧ decode 0x2048 = .ok (.read 8 true) ∧
    decode 0x2049 = .ok (.read 9 true) ∧ decode 0x2020 = .ok (.read 32 false) ∧ decode 0x3009 = .ok (.bitrev 9) ∧
    decode 0x4000 = .ok .next ∧ decode 0x5000 = .error .reservedOpcode ∧ decode 0x2080 = .error .nonzeroReserved ∧
    decode 0x3040 = .error .nonzeroReverse ∧ decode 0x4001 = .error .nonzeroWidth

/-- R76: the word of each line of assembly that stands for one command, the bytes of INIT and the `DIN` of BITREV. That
a line which gives no `DIN` carries 0, and one which gives no bytes carries none, is the model's choice and no clause of
R76 (DESIGN CHOICE, notes/assumptions/17.md). -/
def Obligations.AssemblerWords : Prop :=
  AsmLine.stat.assemble = some ⟨0x0000, 0, []⟩ ∧
    (∀ src, (AsmLine.init src).assemble = some ⟨0x1000, 0, src⟩) ∧
    AsmLine.next.assemble = some ⟨0x4000, 0, []⟩ ∧
    ∀ n < 64,
      (AsmLine.read n).assemble = some ⟨0x2000 ||| BitVec.ofNat 16 n, 0, []⟩ ∧
      (AsmLine.readRev n).assemble = some ⟨0x2040 ||| BitVec.ofNat 16 n, 0, []⟩ ∧
      ∀ x, (AsmLine.bitrev n x).assemble = some ⟨0x3000 ||| BitVec.ofNat 16 n, x, []⟩

/-! ## One step -/

/-- R168: where the oldest issued command's word decodes to `i`, the step takes that command off the list, puts its
operands on the port, and is `exec` of `i` there. The list and the port are the model's form of the arguments of R168
(notes/assumptions/2.md, 3.md). -/
def Obligations.StepRunsDecodedCommand : Prop :=
  ∀ (s : State) (c : HostCommand) (rest : List HostCommand) (i : Instr),
    s.commands = c :: rest → decode c.word = .ok i →
    step s = exec i { s with din := c.din, presented := c.bytes, commands := rest }

/-- R190: with no command issued the block waits. That waiting is a step that changes nothing is the model's choice
(notes/assumptions/2.md). -/
def Obligations.StepWaitsForTheHost : Prop :=
  ∀ s : State, s.commands = [] → step s = .next s

/-- R165 to R168: no step and no command ends in a fault or a refusal of the model; every error of the spec is a next
state with the latch set (notes/assumptions/7.md). -/
def Obligations.EveryStepAnswersNext : Prop :=
  (∀ s, ∃ t, step s = .next t) ∧ ∀ i s, ∃ t, exec i s = .next t

/-- R166: while `FAULT = 1`, a step with any word but a legal STAT or a legal INIT clears `EMIT` and changes nothing
else. (Of the host's side, nothing is said here.) -/
def Obligations.LatchRefusesCommands : Prop :=
  ∀ (s : State) (c : HostCommand) (rest : List HostCommand),
    s.commands = c :: rest → s.fault = true → decode c.word ≠ .ok .stat → decode c.word ≠ .ok .init →
    ∃ t, step s = .next t ∧
      t = { s with din := t.din, presented := t.presented, commands := t.commands, emit := false }

/-- No command writes the host port: its operands and the commands still waiting stay. That the operands and the
waiting list are state, and that a command leaves them in place, is the model's choice (DESIGN CHOICE,
notes/assumptions/2.md, 3.md), made for the order of R61 and the immutability of R64. -/
def Obligations.CommandsLeaveTheHostPort : Prop :=
  ∀ (i : Instr) (s t : State), exec i s = .next t →
    t.din = s.din ∧ t.presented = s.presented ∧ t.commands = s.commands

/-! ## STAT, INIT, BITREV -/

/-- R101: STAT writes `EMIT <- 0` and changes nothing else, in every state; STATUS loses only its EMIT bit. -/
def Obligations.StatClearsEmitOnly : Prop :=
  ∀ s : State, ∃ t, exec .stat s = .next t ∧ t = { s with emit := false } ∧ t.status = s.status &&& 0xFB

/-- R102: INIT makes a fresh session over the presented bytes, in every state, latched or not; over no bytes, the
first READ of a legal width and the first NEXT raise `EndOfStream`. That the next state keeps the model's counter
(notes/assumptions/1.md) and the host port (notes/assumptions/2.md, 3.md) is the model's choice and no clause of R102. -/
def Obligations.InitStartsFreshSession : Prop :=
  ∀ s : State, ∃ t, exec .init s = .next t ∧
    t = { bsr := { window := 0, pending := 0, src := s.presented, pos := 0 }
          ard := .reading, fault := false, cause := .noFault, faultInfo := 0, result := 0
          outId := 0, outValue := 0, emit := false, outSeq := []
          din := s.din, presented := s.presented, commands := s.commands, freeCount := s.freeCount } ∧
    t.status = 0 ∧
    (s.presented = [] →
      (∀ n rev, 1 ≤ n → n ≤ 32 →
        ∃ u, exec (.read n rev) t = .next u ∧ u.fault = true ∧ u.cause = .endOfStream) ∧
      ∃ u, exec .next t = .next u ∧ u.fault = true ∧ u.cause = .endOfStream)

/-- R111: BITREV of a legal width puts the low `n` bits of `DIN`, in reverse order, in `RESULT`, and changes nothing
else but `EMIT`. -/
def Obligations.BitrevReversesOperand : Prop :=
  ∀ (s : State) (n : Nat), s.fault = false → 1 ≤ n → n ≤ 32 →
    ∃ v : Word32, exec (.bitrev n) s = .next { s with result := v, emit := false } ∧
      ∀ i, v.getLsbD i = (decide (i < n) && s.din.getLsbD (n - 1 - i))

/-- R163: READ and BITREV of a width that is 0 or above 32 raise `PreconditionViolation` before any other effect. -/
def Obligations.IllegalWidthRaises : Prop :=
  ∀ (s : State) (n : Nat), s.fault = false → (n = 0 ∨ 32 < n) →
    (∀ rev, exec (.read n rev) s = .next { s with
      fault := true, cause := .preconditionViolation, faultInfo := BitVec.ofNat 32 n, emit := false }) ∧
    exec (.bitrev n) s = .next { s with
      fault := true, cause := .preconditionViolation, faultInfo := BitVec.ofNat 32 n, emit := false }

/-- R13: `rev8` reverses the bits of a byte. -/
def Obligations.Rev8ReversesTheByte : Prop :=
  ∀ (b : Byte) (i : Nat), i < 8 → (rev8 b).getLsbD i = b.getLsbD (7 - i)

/-- R14: `bitReverse` reverses the low `n` bits and clears the rest. -/
def Obligations.BitReverseBits : Prop :=
  ∀ (x : Word32) (n i : Nat), 1 ≤ n → n ≤ 32 →
    (i < n → (bitReverse x n).getLsbD i = x.getLsbD (n - 1 - i)) ∧ (n ≤ i → (bitReverse x n).getLsbD i = false)

/-- R112: `bitReverse` undoes itself on values that fit the width. -/
def Obligations.BitReverseInvolution : Prop :=
  ∀ (x : Word32) (n : Nat), 1 ≤ n → n ≤ 32 → x.toNat < 2 ^ n → bitReverse (bitReverse x n) n = x

/-! ## READ -/

/-- R103 and R104: a READ of a legal width that finds enough bytes feeds `k = max(0, ceil((n - PENDING) / 8))` of them,
takes the field below the top of the pending bits, and leaves `PENDING + 8*k - n` bits; nothing else changes. -/
def Obligations.ReadExtractsField : Prop :=
  ∀ (s : State) (n : Nat) (rev : Bool), s.fault = false → 1 ≤ n → n ≤ 32 →
    let k := (n - s.bsr.pending + 7) / 8
    s.bsr.pos + k ≤ s.bsr.src.length →
    let window := pushBytes rev s.bsr.window ((s.bsr.src.drop s.bsr.pos).take k)
    exec (.read n rev) s = .next { s with
      bsr := { window := window, pending := s.bsr.pending + 8 * k - n, src := s.bsr.src, pos := s.bsr.pos + k }
      result := ((window >>> (s.bsr.pending + 8 * k - n)) &&& BitVec.ofNat 64 (2 ^ n - 1)).setWidth 32
      emit := false }

/-- R103 and R110: a READ of a legal width that needs more bits than are left spends the source and raises
`EndOfStream`; `RESULT` and every other output stay, and nothing is said of `WINDOW` and `PENDING` but that a count
of pending bits is at most 64 (notes/assumptions/1.md, whose counter advances). -/
def Obligations.ReadAtEndOfStream : Prop :=
  ∀ (s : State) (n : Nat) (rev : Bool), s.fault = false → 1 ≤ n → n ≤ 32 →
    s.bsr.pos ≤ s.bsr.src.length → s.bsr.bitsLeft < n →
    ∃ window pending, pending ≤ 64 ∧ exec (.read n rev) s = .next { s with
      bsr := { window := window, pending := pending, src := s.bsr.src, pos := s.bsr.src.length }
      fault := true, cause := .endOfStream, faultInfo := BitVec.ofNat 32 n, emit := false
      freeCount := s.freeCount + 1 }

/-- R54 (with R57, R36): let the reader have fed the bytes `f`. A READ of `n` returns the next `n` bits of the fed-bit
stream, first bit most significant, where the bytes it feeds itself are reversed exactly if `rev`; the position
advances by `n`, over as few bytes as hold it. -/
def Obligations.ReadReturnsFedStreamBits : Prop :=
  ∀ (s : State) (n : Nat) (rev : Bool) (f : List Byte), s.fault = false → 1 ≤ n → n ≤ 32 →
    s.bsr.pending ≤ 7 → s.bsr.hasFed f → s.bsr.position + n ≤ 8 * s.bsr.src.length →
    ∃ (t : State) (g : List Byte), exec (.read n rev) s = .next t ∧ t.fault = false ∧
      g = f ++ ((s.bsr.src.drop s.bsr.pos).take (t.bsr.pos - s.bsr.pos)).map (fun b => if rev then rev8 b else b) ∧
      t.bsr.hasFed g ∧ t.result.toNat = streamValue g s.bsr.position n ∧
      t.bsr.position = s.bsr.position + n ∧ t.bsr.pos = bytesFor (s.bsr.position + n) ∧ t.bsr.pending ≤ 7

/-- R105: what READ does is fixed by the reader, the width and `rev`: two unlatched states with the same reader get
the same fault or the same value and the same reader. -/
def Obligations.ReadDeterminedByReader : Prop :=
  ∀ (s s' t t' : State) (n : Nat) (rev : Bool), s.fault = false → s'.fault = false → s'.bsr = s.bsr →
    exec (.read n rev) s = .next t → exec (.read n rev) s' = .next t' →
    t'.fault = t.fault ∧ (t.fault = true → t'.cause = t.cause ∧ t'.faultInfo = t.faultInfo ∧ t'.bsr.pos = t.bsr.pos) ∧
      (t.fault = false → t'.bsr = t.bsr ∧ t'.result = t.result)

/-- R77 (with R56): `FIELD n` leaves in `RESULT` the field of the next `n` bits, its first bit least significant; if
the READ faults, the BITREV is refused. -/
def Obligations.FieldReadsLsbFirst : Prop :=
  ∀ (s : State) (n : Nat), s.commands = [] → s.fault = false → 1 ≤ n → n ≤ 32 → s.bsr.pending ≤ 7 →
    s.bsr.pos ≤ s.bsr.src.length →
    (n ≤ s.bsr.bitsLeft →
      ∃ t, s.performField n = .next t ∧ t.fault = false ∧ t.result.toNat = s.bsr.fieldAhead 0 n ∧
        ∀ j, t.bsr.bitAhead j = s.bsr.bitAhead (n + j)) ∧
    (s.bsr.bitsLeft < n →
      ∃ t, s.performField n = .next t ∧ t.fault = true ∧ t.cause = .endOfStream ∧
        t.faultInfo = BitVec.ofNat 32 n ∧ t.result = s.result)

/-! ## NEXT -/

/-- R133 (with R131, R132, R138): NEXT on a record whose ID is in the table and whose bits are all there emits the pair
on the output registers and at the end of `OUT_SEQ`, consumes exactly the record's bits over as few bytes as hold
them, and changes nothing else. -/
def Obligations.NextEmitsRecord : Prop :=
  ∀ (s : State) (id w : Nat), s.fault = false → s.ard = .reading → s.bsr.pending ≤ 7 →
    id = s.bsr.fieldAhead 0 9 → attrWidth id = some w → 9 + w ≤ s.bsr.bitsLeft →
    let value := BitVec.ofNat 32 (emittedValue id (s.bsr.fieldAhead 9 w))
    let k := (9 + w - s.bsr.pending + 7) / 8
    ∃ t, exec .next s = .next t ∧
      t = { s with
        bsr := { window := t.bsr.window, pending := s.bsr.pending + 8 * k - (9 + w), src := s.bsr.src,
                 pos := s.bsr.pos + k }
        outId := BitVec.ofNat 9 id, outValue := value, emit := true
        outSeq := s.outSeq ++ [⟨BitVec.ofNat 9 id, value⟩] } ∧
      ∀ j, t.bsr.bitAhead j = s.bsr.bitAhead (9 + w + j)

/-- R134: NEXT on the terminator ID emits nothing, enters Done, and consumes the 9 bits of the ID and no more; the
bits after it stay unconsumed. -/
def Obligations.NextStopsAtTerminator : Prop :=
  ∀ s : State, s.fault = false → s.ard = .reading → s.bsr.pending ≤ 7 →
    s.bsr.fieldAhead 0 9 = 0x1FF → 9 ≤ s.bsr.bitsLeft →
    let k := (9 - s.bsr.pending + 7) / 8
    ∃ t, exec .next s = .next t ∧
      t = { s with
        bsr := { window := t.bsr.window, pending := s.bsr.pending + 8 * k - 9, src := s.bsr.src, pos := s.bsr.pos + k }
        ard := .done, emit := false } ∧
      ∀ j, t.bsr.bitAhead j = s.bsr.bitAhead (9 + j)

/-- R162: NEXT on an ID that is neither the terminator nor in the table raises `UnknownAttributeID`; the 9 ID bits
are consumed and no value bits are. -/
def Obligations.NextRejectsUnknownId : Prop :=
  ∀ (s : State) (id : Nat), s.fault = false → s.ard = .reading → s.bsr.pending ≤ 7 →
    id = s.bsr.fieldAhead 0 9 → 16 ≤ id → id ≤ 510 → 9 ≤ s.bsr.bitsLeft →
    let k := (9 - s.bsr.pending + 7) / 8
    ∃ t, exec .next s = .next t ∧
      t = { s with
        bsr := { window := t.bsr.window, pending := s.bsr.pending + 8 * k - 9, src := s.bsr.src, pos := s.bsr.pos + k }
        fault := true, cause := .unknownAttributeID, faultInfo := BitVec.ofNat 32 id, emit := false } ∧
      ∀ j, t.bsr.bitAhead j = s.bsr.bitAhead (9 + j)

/-- R136: NEXT that runs out of bits, in the ID or in the value, raises `EndOfStream` with the width it wanted; no
pair is emitted for the incomplete record. -/
def Obligations.NextAtEndOfStream : Prop :=
  ∀ (s : State) (wanted : Nat), s.fault = false → s.ard = .reading → s.bsr.pending ≤ 7 →
    s.bsr.pos ≤ s.bsr.src.length →
    ((s.bsr.bitsLeft < 9 ∧ wanted = 9) ∨
      (9 ≤ s.bsr.bitsLeft ∧ attrWidth (s.bsr.fieldAhead 0 9) = some wanted ∧ s.bsr.bitsLeft < 9 + wanted)) →
    ∃ t, exec .next s = .next t ∧ t = { s with
      bsr := { window := t.bsr.window, pending := t.bsr.pending, src := s.bsr.src, pos := s.bsr.src.length }
      fault := true, cause := .endOfStream, faultInfo := BitVec.ofNat 32 wanted, emit := false
      freeCount := t.freeCount }

/-- R137: NEXT in Done clears `EMIT` and changes nothing else. -/
def Obligations.NextAfterDoneIsIdle : Prop :=
  ∀ s : State, s.fault = false → s.ard = .done → exec .next s = .next { s with emit := false }

/-- R55 and R56: where the pending bits were fed with reversal, the field ahead is the field of the source at that
stream position; NEXT and READ.REV that do not fault keep the pending bits so. -/
def Obligations.ReversedFieldsAreSourceFields : Prop :=
  (∀ (r : Reader) (offset w : Nat), r.pendingReversed →
    r.fieldAhead offset w = fieldValue r.src (r.position + offset) w) ∧
  ∀ (i : Instr) (s t : State), (i = .next ∨ ∃ n, i = .read n true) → s.fault = false → s.bsr.pendingReversed →
    exec i s = .next t → t.fault = false → t.bsr.pendingReversed

/-! ## Constant data and views -/

/-- R131: the width table, the range of its widths, and that NEXT never raises `PreconditionViolation`. -/
def Obligations.WidthTableEntries : Prop :=
  (∀ id : AttrId, widthOf id = [10, 10, 10, 10, 10, 8, 21, 21, 21, 21, 21, 21, 7, 32, 25, 25][id.toNat]?) ∧
  (∀ (id : AttrId) (w : Nat), widthOf id = some w → 7 ≤ w ∧ w ≤ 32) ∧
  ∀ s t : State, s.fault = false → exec .next s = .next t → t.fault = true → t.cause ≠ .preconditionViolation

/-- R132: values of IDs 6 to 11 are divided by 256, truncating, and no others are; a 21-bit resource value emits at
most 8191, and a raw value below 256 emits 0. -/
def Obligations.ResourceScaling : Prop :=
  (∀ (id : AttrId) (v : Word32), (scaleValue id v).toNat =
    if 6 ≤ id.toNat ∧ id.toNat ≤ 11 then v.toNat / 256 else v.toNat) ∧
  ∀ (id : AttrId) (v : Word32), 6 ≤ id.toNat → id.toNat ≤ 11 →
    (v.toNat < 2 ^ 21 → (scaleValue id v).toNat ≤ 8191) ∧ (v.toNat < 256 → scaleValue id v = 0)

/-- R32 (with the codes of R27): the fields of STATUS, and its value after reset. -/
def Obligations.StatusFields : Prop :=
  (∀ s : State,
    s.status.getLsbD 0 = decide (s.ard = .done) ∧ s.status.getLsbD 1 = s.fault ∧ s.status.getLsbD 2 = s.emit ∧
    s.status.getLsbD 3 = false ∧ s.status.getLsbD 7 = false ∧
    (s.status.extractLsb' 4 3).toNat = match s.cause with
      | .noFault => 0
      | .endOfStream => 1
      | .unknownAttributeID => 2
      | .preconditionViolation => 3
      | .illegalCommand => 4) ∧
  State.reset.status = 0

/-! ## Reset and the invariant -/

/-- R190: every element at its reset value, and the state after `INIT src=[]` is the state after reset. (The
model's own counter and the host's side are no elements of R190, and nothing is said of them here.) -/
def Obligations.ResetValues : Prop :=
  (∀ s, s = State.reset → s.bsr.window = 0 ∧ s.bsr.pending = 0 ∧ s.bsr.src = [] ∧ s.bsr.pos = 0 ∧ s.ard = .reading ∧
    s.fault = false ∧ s.cause = .noFault ∧ s.faultInfo = 0 ∧ s.result = 0 ∧ s.outId = 0 ∧ s.outValue = 0 ∧
    s.emit = false ∧ s.status = 0 ∧ s.outSeq = []) ∧
  ∀ s : State, s.presented = [] → ∃ t, exec .init s = .next t ∧ t = { State.reset with
    din := t.din, presented := t.presented, commands := t.commands, freeCount := t.freeCount }

/-- R191: with the reader as reset leaves it, a READ of a legal width and a NEXT raise `EndOfStream`, while BITREV and
STAT behave normally and keep the reader so. -/
def Obligations.CommandsBeforeFirstInit : Prop :=
  ∀ s : State, s.bsr = State.reset.bsr → s.fault = false → s.ard = .reading →
    (∀ n rev, 1 ≤ n → n ≤ 32 → ∃ t, exec (.read n rev) s = .next t ∧ t.fault = true ∧ t.cause = .endOfStream ∧
      t.faultInfo = BitVec.ofNat 32 n) ∧
    (∃ t, exec .next s = .next t ∧ t.fault = true ∧ t.cause = .endOfStream ∧ t.faultInfo = 9) ∧
    (∀ n, 1 ≤ n → n ≤ 32 → exec (.bitrev n) s = .next { s with result := bitReverse s.din n, emit := false }) ∧
    exec .stat s = .next { s with emit := false }

/-- The invariant (R21 to R33, R35, R106, R110) holds after reset. -/
def Obligations.ResetMeetsInv : Prop := Inv State.reset

/-- Every step keeps the invariant (R21 to R33, R35, R106, R110), whatever the free values are. -/
def Obligations.StepKeepsInv : Prop :=
  ∀ s t : State, Inv s → step s = .next t → Inv t

/-- R22: `0 <= PENDING <= 7` after reset and after every command that does not fault, and at most `n + 7 <= 39` at
every point of the feed loop of a READ of `n`. -/
def Obligations.PendingBound : Prop :=
  State.reset.bsr.pending ≤ 7 ∧
  (∀ s t : State, (s.fault = false → s.bsr.pending ≤ 7) → step s = .next t → t.fault = false → t.bsr.pending ≤ 7) ∧
  ∀ (r : Reader) (n : Nat) (rev : Bool) (fuel : Nat), r.pending ≤ 7 → 1 ≤ n → n ≤ 32 →
    ∃ r', (r.fill n rev fuel = .filled r' ∨ r.fill n rev fuel = .exhausted r') ∧ r'.pending ≤ n + 7 ∧ n + 7 ≤ 39

/-! ## Whole-machine rules -/

/-- R167: a step that leaves the fault state performs a legal INIT; every other step in it keeps the latch, the cause
and the information word. (Reset is no step: notes/assumptions/16.md.) -/
def Obligations.LatchLeftOnlyByInit : Prop :=
  ∀ s t : State, s.fault = true → step s = .next t →
    (t.fault = true ∧ t.cause = s.cause ∧ t.faultInfo = s.faultInfo) ∨
      (t.fault = false ∧ ∃ c rest, s.commands = c :: rest ∧ decode c.word = .ok .init)

/-- R165: a step that enters the fault state writes none of `RESULT`, `OUT_ID`, `OUT_VALUE`, `OUT_SEQ`, `ARD_STATE`
(nor `SRC`), and clears `EMIT`. -/
def Obligations.FaultEntryKeepsOutputs : Prop :=
  ∀ s t : State, s.fault = false → step s = .next t → t.fault = true →
    t.emit = false ∧ t.result = s.result ∧ t.outId = s.outId ∧ t.outValue = s.outValue ∧ t.outSeq = s.outSeq ∧
      t.ard = s.ard ∧ t.bsr.src = s.bsr.src

/-- R160: which cause a step that enters the fault state can report, by the word it performed, and with which
information word. -/
def Obligations.FaultCausesAndInfo : Prop :=
  ∀ (s t : State) (c : HostCommand) (rest : List HostCommand), s.commands = c :: rest → s.fault = false →
    step s = .next t → t.fault = true →
    match decode c.word with
    | .error _ => t.cause = .illegalCommand ∧ t.faultInfo = c.word.setWidth 32
    | .ok (.read n _) =>
      t.faultInfo = BitVec.ofNat 32 n ∧
        ((t.cause = .preconditionViolation ∧ (n = 0 ∨ 32 < n)) ∨ (t.cause = .endOfStream ∧ 1 ≤ n ∧ n ≤ 32))
    | .ok (.bitrev n) => t.cause = .preconditionViolation ∧ t.faultInfo = BitVec.ofNat 32 n ∧ (n = 0 ∨ 32 < n)
    | .ok .next =>
      (t.cause = .endOfStream ∧ (t.faultInfo = 9 ∨ ∃ id w, attrWidth id = some w ∧ t.faultInfo = BitVec.ofNat 32 w)) ∨
        (t.cause = .unknownAttributeID ∧ 16 ≤ t.faultInfo.toNat ∧ t.faultInfo.toNat ≤ 510)
    | .ok .stat => False
    | .ok .init => False

/-- R31: after a command, `EMIT` is 1 exactly where the command was a NEXT that emitted a pair; it is 0 after reset. -/
def Obligations.EmitMarksEmittingNext : Prop :=
  State.reset.emit = false ∧
  ∀ (s t : State) (c : HostCommand) (rest : List HostCommand), s.commands = c :: rest → step s = .next t →
    (t.emit = true ↔
      decode c.word = .ok .next ∧ s.fault = false ∧ t.outSeq = s.outSeq ++ [⟨t.outId, t.outValue⟩])

/-- R30 and R33: the output registers and `OUT_SEQ` are 0 and empty after reset; INIT clears the output registers and `OUT_SEQ`, an emitting NEXT puts its pair there, and every other
command leaves them as they are. -/
def Obligations.OutputsWrittenOnlyByEmit : Prop :=
  (State.reset.outId = 0 ∧ State.reset.outValue = 0 ∧ State.reset.outSeq = []) ∧
  ∀ (s t : State) (c : HostCommand) (rest : List HostCommand), s.commands = c :: rest → step s = .next t →
    (decode c.word = .ok .init → t.outId = 0 ∧ t.outValue = 0 ∧ t.outSeq = []) ∧
    (t.emit = true → t.outSeq = s.outSeq ++ [⟨t.outId, t.outValue⟩]) ∧
    (decode c.word ≠ .ok .init → t.emit = false →
      t.outId = s.outId ∧ t.outValue = s.outValue ∧ t.outSeq = s.outSeq)

/-- R29: only INIT (with 0) and a READ or BITREV that completes write `RESULT`; a READ of `n` leaves a value of at most
`n` bits. -/
def Obligations.ResultWriters : Prop :=
  ∀ (s t : State) (c : HostCommand) (rest : List HostCommand), s.commands = c :: rest → step s = .next t →
    match decode c.word with
    | .ok .init => t.result = 0
    | .ok (.read n _) => (t.fault = true → t.result = s.result) ∧ (t.fault = false → t.result.toNat < 2 ^ n)
    | .ok (.bitrev n) =>
      (t.fault = true → t.result = s.result) ∧ (t.fault = false → t.result = bitReverse c.din n)
    | _ => t.result = s.result

/-- R130: `ARD_STATE` changes only to Done, by a NEXT that emits nothing and raises nothing, and to Reading, by INIT; an
emitting NEXT goes from Reading to Reading; a fault does not change it. -/
def Obligations.ArdTransitions : Prop :=
  ∀ (s t : State) (c : HostCommand) (rest : List HostCommand), s.commands = c :: rest → step s = .next t →
    (s.ard = .reading → t.ard = .done →
      decode c.word = .ok .next ∧ s.fault = false ∧ t.fault = false ∧ t.emit = false) ∧
    (s.ard = .done → t.ard = .reading → decode c.word = .ok .init) ∧
    (decode c.word = .ok .init → t.ard = .reading) ∧
    (t.emit = true → s.ard = .reading ∧ t.ard = .reading) ∧
    (s.fault = false → t.fault = true → t.ard = s.ard)

/-- R23, R24, R51: only INIT binds the source and resets the cursor; otherwise the source stays and the cursor never
moves back; only READ and NEXT move it, and never past the end. -/
def Obligations.SourceAndCursor : Prop :=
  ∀ (s t : State) (c : HostCommand) (rest : List HostCommand), s.commands = c :: rest → step s = .next t →
    (decode c.word = .ok .init → t.bsr.src = c.bytes ∧ t.bsr.pos = 0) ∧
    (decode c.word ≠ .ok .init → t.bsr.src = s.bsr.src ∧ s.bsr.pos ≤ t.bsr.pos ∧
      (s.bsr.pos ≤ s.bsr.src.length → t.bsr.pos ≤ t.bsr.src.length)) ∧
    (decode c.word ≠ .ok .init → decode c.word ≠ .ok .next → (∀ n rev, decode c.word ≠ .ok (.read n rev)) →
      t.bsr = s.bsr)

/-- R35: no output depends on the bits of `WINDOW` at positions `PENDING` and above. Two states that agree elsewhere
step to states that agree elsewhere, with the same view for the host. -/
def Obligations.StaleBitsUnobservable : Prop :=
  ∀ s s' t : State, s.sameLiveBits s' → step s = .next t →
    ∃ t', step s' = .next t' ∧ t.sameLiveBits t' ∧ t'.hostView = t.hostView

/-- R110: behind the fault latch no output depends on `WINDOW` or `PENDING`, and leaving the latch forgets them. -/
def Obligations.LatchHidesWindow : Prop :=
  ∀ s s' t : State, s.fault = true → s.sameButWindow s' → step s = .next t →
    ∃ t', step s' = .next t' ∧ t.sameButWindow t' ∧ t'.hostView = t.hostView ∧ (t.fault = false → t'.bsr = t.bsr)

/-- R172: a step of one instance is a step of that instance alone, and leaves every other instance as it was.
(Which one steps is the caller's choice: notes/assumptions/9.md.) -/
def Obligations.InstancesAreIndependent : Prop :=
  ∀ (k : Nat) (m m' : Instances), stepInstance k m = .next m' →
    (∀ j, j ≠ k → m'[j]? = m[j]?) ∧ ∀ s, m[k]? = some s → ∃ t, step s = .next t ∧ m'[k]? = some t

/-! ## Sessions -/

/-- R60 and R193: `SRC[i]` is byte `767 + i` of the file, up to the end of the region. That a region
end past the file's end adds nothing, and that the source is empty where file or region ends before byte 767, is the
model's choice (DESIGN CHOICE, notes/assumptions/6.md). -/
def Obligations.SourceIsTheAttributeRegion : Prop :=
  ∀ (file : List Byte) (regionEnd i : Nat),
    (attrSource file regionEnd)[i]? = if 767 + i < regionEnd then file[767 + i]? else none

/-- R139: from any state, INIT over `L` bytes and then `floor(L / 2) + 1` NEXTs reach Done or a fault, with at most
`floor(L / 2)` pairs emitted. -/
def Obligations.SessionEndsInBoundedNexts : Prop :=
  ∀ (s : State) (bytes : List Byte),
    s.commands = commandOf .init 0 bytes :: List.replicate (sessionBound bytes) (commandOf .next 0 []) →
    ∃ t, Sys2Proof.core.run (sessionBound bytes + 1) s = .next t ∧ (t.ard = .done ∨ t.fault = true) ∧
      t.outSeq.length ≤ bytes.length / 2

/-- R133 to R136, R192, R200: a decode session over any bytes, from any state, gives the host exactly the pairs and
the end that the record stream of those bytes has, and it does end. That the host's loop looks at FAULT, then DONE,
then EMIT is the model's reading (notes/assumptions/15.md). -/
def Obligations.SessionDecodesRecordStream : Prop :=
  ∀ (s : State) (bytes : List Byte), s.commands = [] →
    decodeSession (sessionBound bytes) s bytes = recordStream bytes (sessionBound bytes) 0 [] ∧
      (decodeSession (sessionBound bytes) s bytes).2 ≠ .notEnded

/-- R200: a session of NEXTs, begun by INIT over `bytes`, is observed to end as the record stream of those bytes does:
at Done with the pairs of `OUT_SEQ`, or at the first fault with its cause and information word. -/
def Obligations.SessionObservation : Prop :=
  ∀ (s : State) (bytes : List Byte), s.bsr = Reader.fresh bytes → s.ard = .reading → s.fault = false →
    s.outSeq = [] → s.commands = List.replicate (sessionBound bytes) (commandOf .next 0 []) →
    observeSession (sessionBound bytes) s = (recordStream bytes (sessionBound bytes) 0 []).2
end

