-- ==== Sys2Proof/Laws/Bits.lean ====
section
/-! SUPPORT. The bits of the primitives (00_scope.md R13, R14) and of a fed window (10_state.md R20). -/

namespace Sys2Proof.Machine

theorem reverseLow_lt (n x : Nat) : reverseLow n x < 2 ^ n := by
  induction n generalizing x with
  | zero => simp [reverseLow]
  | succ n ih =>
    have h1 : reverseLow n (x / 2) < 2 ^ (n + 1) :=
      (ih (x / 2)).trans (Nat.pow_lt_pow_right (by decide) (Nat.lt_succ_self n))
    have h2 : (x % 2) <<< n < 2 ^ (n + 1) := by
      rw [Nat.shiftLeft_eq, pow_succ]
      have := Nat.two_pow_pos n
      rcases Nat.mod_two_eq_zero_or_one x with h | h <;> rw [h] <;> omega
    exact Nat.or_lt_two_pow h1 h2

theorem testBit_mod_two (x i : Nat) : (x % 2).testBit i = (decide (i = 0) && x.testBit 0) := by
  cases i with
  | zero => simp
  | succ i => simp [Nat.testBit_succ, Nat.div_eq_of_lt (Nat.mod_lt x Nat.two_pos)]

/-- Bit `i` of the reversal is bit `n - 1 - i` of the operand. -/
theorem reverseLow_testBit (n x i : Nat) :
    (reverseLow n x).testBit i = (decide (i < n) && x.testBit (n - 1 - i)) := by
  induction n generalizing x with
  | zero => simp [reverseLow]
  | succ n ih =>
    rw [reverseLow, Nat.testBit_or, ih, Nat.testBit_shiftLeft, testBit_mod_two, Nat.testBit_div_two]
    rcases Nat.lt_trichotomy i n with h | rfl | h
    · have : n - 1 - i + 1 = n + 1 - 1 - i := by omega
      simp [h, Nat.not_le.2 h, Nat.lt_succ_of_lt h, this]
    · simp
    · simp [Nat.not_lt.2 h.le, show ¬ i < n + 1 by omega, show ¬ i - n = 0 by omega]

/-- The reversal of `n` bits fits in `n` bits. -/
theorem bitReverse_toNat_lt (x : Word32) (n : Nat) (hn : n ≤ 32) : (bitReverse x n).toNat < 2 ^ n := by
  have h := reverseLow_lt n x.toNat
  rw [bitReverse, BitVec.toNat_ofNat, Nat.mod_eq_of_lt (h.trans_le (Nat.pow_le_pow_right (by decide) hn))]
  exact h

theorem mask_getLsbD (n i : Nat) : (mask n).getLsbD i = (decide (i < 64) && decide (i < n)) := by
  simp [mask, BitVec.getLsbD_ofNat, Nat.testBit_two_pow_sub_one]

/-- A feed puts the byte in the low 8 bits and moves every other bit up by 8 (R20). -/
theorem pushByte_getLsbD (w : Window) (b : Byte) (i : Nat) :
    (pushByte w b).getLsbD i =
      (decide (i < 64) && if i < 8 then b.getLsbD i else w.getLsbD (i - 8)) := by
  by_cases h64 : i < 64
  · by_cases h8 : i < 8
    · simp [pushByte, h64, h8]
    · simp [pushByte, h64, h8, BitVec.getLsbD_of_ge b i (by omega), BitVec.getLsbD_eq_getElem (show i - 8 < 64 by omega)]
  · simp [pushByte, h64, BitVec.getLsbD_of_ge b i (by omega)]

/-- The field below the top of the pending bits, bit by bit (R35, R103). -/
theorem field_getLsbD (r : Reader) (n i : Nat) (hn : n ≤ 32) :
    (r.field n).getLsbD i = (decide (i < n) && r.window.getLsbD (r.pending - n + i)) := by
  by_cases h : i < n
  · simp [Reader.field, mask_getLsbD, h, show i < 32 by omega, show i < 64 by omega]
  · simp [Reader.field, mask_getLsbD, h]

end Sys2Proof.Machine
end

