-- ==== Sys2Proof/Laws/State.lean ====
section
/-! SUPPORT. One lemma for each field of State under each update, so that no proof unfolds an update of the state. -/

namespace Sys2Proof.Machine

/-! ## raiseFault -/

@[simp] theorem State.raiseFault_bsr (s : State) (c : Cause) (info : Word32) :
    (s.raiseFault c info).bsr = s.bsr := rfl
@[simp] theorem State.raiseFault_ard (s : State) (c : Cause) (info : Word32) :
    (s.raiseFault c info).ard = s.ard := rfl
@[simp] theorem State.raiseFault_fault (s : State) (c : Cause) (info : Word32) :
    (s.raiseFault c info).fault = true := rfl
@[simp] theorem State.raiseFault_cause (s : State) (c : Cause) (info : Word32) :
    (s.raiseFault c info).cause = c := rfl
@[simp] theorem State.raiseFault_faultInfo (s : State) (c : Cause) (info : Word32) :
    (s.raiseFault c info).faultInfo = info := rfl
@[simp] theorem State.raiseFault_result (s : State) (c : Cause) (info : Word32) :
    (s.raiseFault c info).result = s.result := rfl
@[simp] theorem State.raiseFault_outId (s : State) (c : Cause) (info : Word32) :
    (s.raiseFault c info).outId = s.outId := rfl
@[simp] theorem State.raiseFault_outValue (s : State) (c : Cause) (info : Word32) :
    (s.raiseFault c info).outValue = s.outValue := rfl
@[simp] theorem State.raiseFault_emit (s : State) (c : Cause) (info : Word32) :
    (s.raiseFault c info).emit = false := rfl
@[simp] theorem State.raiseFault_outSeq (s : State) (c : Cause) (info : Word32) :
    (s.raiseFault c info).outSeq = s.outSeq := rfl
@[simp] theorem State.raiseFault_din (s : State) (c : Cause) (info : Word32) :
    (s.raiseFault c info).din = s.din := rfl
@[simp] theorem State.raiseFault_presented (s : State) (c : Cause) (info : Word32) :
    (s.raiseFault c info).presented = s.presented := rfl
@[simp] theorem State.raiseFault_commands (s : State) (c : Cause) (info : Word32) :
    (s.raiseFault c info).commands = s.commands := rfl
@[simp] theorem State.raiseFault_freeCount (s : State) (c : Cause) (info : Word32) :
    (s.raiseFault c info).freeCount = s.freeCount := rfl

/-! ## refuse -/

@[simp] theorem State.refuse_bsr (s : State) : s.refuse.bsr = s.bsr := rfl
@[simp] theorem State.refuse_ard (s : State) : s.refuse.ard = s.ard := rfl
@[simp] theorem State.refuse_fault (s : State) : s.refuse.fault = s.fault := rfl
@[simp] theorem State.refuse_cause (s : State) : s.refuse.cause = s.cause := rfl
@[simp] theorem State.refuse_faultInfo (s : State) : s.refuse.faultInfo = s.faultInfo := rfl
@[simp] theorem State.refuse_result (s : State) : s.refuse.result = s.result := rfl
@[simp] theorem State.refuse_outId (s : State) : s.refuse.outId = s.outId := rfl
@[simp] theorem State.refuse_outValue (s : State) : s.refuse.outValue = s.outValue := rfl
@[simp] theorem State.refuse_emit (s : State) : s.refuse.emit = false := rfl
@[simp] theorem State.refuse_outSeq (s : State) : s.refuse.outSeq = s.outSeq := rfl
@[simp] theorem State.refuse_din (s : State) : s.refuse.din = s.din := rfl
@[simp] theorem State.refuse_presented (s : State) : s.refuse.presented = s.presented := rfl
@[simp] theorem State.refuse_commands (s : State) : s.refuse.commands = s.commands := rfl
@[simp] theorem State.refuse_freeCount (s : State) : s.refuse.freeCount = s.freeCount := rfl

/-! ## beginSession -/

@[simp] theorem State.beginSession_bsr (s : State) (bytes : List Byte) :
    (s.beginSession bytes).bsr = Reader.fresh bytes := rfl
@[simp] theorem State.beginSession_ard (s : State) (bytes : List Byte) :
    (s.beginSession bytes).ard = .reading := rfl
@[simp] theorem State.beginSession_fault (s : State) (bytes : List Byte) :
    (s.beginSession bytes).fault = false := rfl
@[simp] theorem State.beginSession_cause (s : State) (bytes : List Byte) :
    (s.beginSession bytes).cause = .noFault := rfl
@[simp] theorem State.beginSession_faultInfo (s : State) (bytes : List Byte) :
    (s.beginSession bytes).faultInfo = 0 := rfl
@[simp] theorem State.beginSession_result (s : State) (bytes : List Byte) : (s.beginSession bytes).result = 0 := rfl
@[simp] theorem State.beginSession_outId (s : State) (bytes : List Byte) : (s.beginSession bytes).outId = 0 := rfl
@[simp] theorem State.beginSession_outValue (s : State) (bytes : List Byte) :
    (s.beginSession bytes).outValue = 0 := rfl
@[simp] theorem State.beginSession_emit (s : State) (bytes : List Byte) : (s.beginSession bytes).emit = false := rfl
@[simp] theorem State.beginSession_outSeq (s : State) (bytes : List Byte) :
    (s.beginSession bytes).outSeq = [] := rfl
@[simp] theorem State.beginSession_din (s : State) (bytes : List Byte) : (s.beginSession bytes).din = s.din := rfl
@[simp] theorem State.beginSession_presented (s : State) (bytes : List Byte) :
    (s.beginSession bytes).presented = s.presented := rfl
@[simp] theorem State.beginSession_commands (s : State) (bytes : List Byte) :
    (s.beginSession bytes).commands = s.commands := rfl
@[simp] theorem State.beginSession_freeCount (s : State) (bytes : List Byte) :
    (s.beginSession bytes).freeCount = s.freeCount := rfl

/-! ## loseWindow -/

@[simp] theorem State.loseWindow_bsr (s : State) :
    s.loseWindow.bsr = { s.bsr with window := Config.freeWindow s.freeCount, pending := (Config.freePending s.freeCount).val } := rfl
@[simp] theorem State.loseWindow_ard (s : State) : s.loseWindow.ard = s.ard := rfl
@[simp] theorem State.loseWindow_fault (s : State) : s.loseWindow.fault = s.fault := rfl
@[simp] theorem State.loseWindow_cause (s : State) : s.loseWindow.cause = s.cause := rfl
@[simp] theorem State.loseWindow_faultInfo (s : State) : s.loseWindow.faultInfo = s.faultInfo := rfl
@[simp] theorem State.loseWindow_result (s : State) : s.loseWindow.result = s.result := rfl
@[simp] theorem State.loseWindow_outId (s : State) : s.loseWindow.outId = s.outId := rfl
@[simp] theorem State.loseWindow_outValue (s : State) : s.loseWindow.outValue = s.outValue := rfl
@[simp] theorem State.loseWindow_emit (s : State) : s.loseWindow.emit = s.emit := rfl
@[simp] theorem State.loseWindow_outSeq (s : State) : s.loseWindow.outSeq = s.outSeq := rfl
@[simp] theorem State.loseWindow_din (s : State) : s.loseWindow.din = s.din := rfl
@[simp] theorem State.loseWindow_presented (s : State) : s.loseWindow.presented = s.presented := rfl
@[simp] theorem State.loseWindow_commands (s : State) : s.loseWindow.commands = s.commands := rfl
@[simp] theorem State.loseWindow_freeCount (s : State) : s.loseWindow.freeCount = s.freeCount + 1 := rfl

/-! ## emitPair -/

@[simp] theorem State.emitPair_bsr (s : State) (id : AttrId) (value : Word32) :
    (s.emitPair id value).bsr = s.bsr := rfl
@[simp] theorem State.emitPair_ard (s : State) (id : AttrId) (value : Word32) :
    (s.emitPair id value).ard = s.ard := rfl
@[simp] theorem State.emitPair_fault (s : State) (id : AttrId) (value : Word32) :
    (s.emitPair id value).fault = s.fault := rfl
@[simp] theorem State.emitPair_cause (s : State) (id : AttrId) (value : Word32) :
    (s.emitPair id value).cause = s.cause := rfl
@[simp] theorem State.emitPair_faultInfo (s : State) (id : AttrId) (value : Word32) :
    (s.emitPair id value).faultInfo = s.faultInfo := rfl
@[simp] theorem State.emitPair_result (s : State) (id : AttrId) (value : Word32) :
    (s.emitPair id value).result = s.result := rfl
@[simp] theorem State.emitPair_outId (s : State) (id : AttrId) (value : Word32) :
    (s.emitPair id value).outId = id := rfl
@[simp] theorem State.emitPair_outValue (s : State) (id : AttrId) (value : Word32) :
    (s.emitPair id value).outValue = value := rfl
@[simp] theorem State.emitPair_emit (s : State) (id : AttrId) (value : Word32) :
    (s.emitPair id value).emit = true := rfl
@[simp] theorem State.emitPair_outSeq (s : State) (id : AttrId) (value : Word32) :
    (s.emitPair id value).outSeq = s.outSeq ++ [⟨id, value⟩] := rfl
@[simp] theorem State.emitPair_din (s : State) (id : AttrId) (value : Word32) :
    (s.emitPair id value).din = s.din := rfl
@[simp] theorem State.emitPair_presented (s : State) (id : AttrId) (value : Word32) :
    (s.emitPair id value).presented = s.presented := rfl
@[simp] theorem State.emitPair_commands (s : State) (id : AttrId) (value : Word32) :
    (s.emitPair id value).commands = s.commands := rfl
@[simp] theorem State.emitPair_freeCount (s : State) (id : AttrId) (value : Word32) :
    (s.emitPair id value).freeCount = s.freeCount := rfl

/-! ## issue -/

@[simp] theorem State.issue_bsr (s : State) (c : HostCommand) : (s.issue c).bsr = s.bsr := rfl
@[simp] theorem State.issue_ard (s : State) (c : HostCommand) : (s.issue c).ard = s.ard := rfl
@[simp] theorem State.issue_fault (s : State) (c : HostCommand) : (s.issue c).fault = s.fault := rfl
@[simp] theorem State.issue_cause (s : State) (c : HostCommand) : (s.issue c).cause = s.cause := rfl
@[simp] theorem State.issue_faultInfo (s : State) (c : HostCommand) : (s.issue c).faultInfo = s.faultInfo := rfl
@[simp] theorem State.issue_result (s : State) (c : HostCommand) : (s.issue c).result = s.result := rfl
@[simp] theorem State.issue_outId (s : State) (c : HostCommand) : (s.issue c).outId = s.outId := rfl
@[simp] theorem State.issue_outValue (s : State) (c : HostCommand) : (s.issue c).outValue = s.outValue := rfl
@[simp] theorem State.issue_emit (s : State) (c : HostCommand) : (s.issue c).emit = s.emit := rfl
@[simp] theorem State.issue_outSeq (s : State) (c : HostCommand) : (s.issue c).outSeq = s.outSeq := rfl
@[simp] theorem State.issue_din (s : State) (c : HostCommand) : (s.issue c).din = s.din := rfl
@[simp] theorem State.issue_presented (s : State) (c : HostCommand) : (s.issue c).presented = s.presented := rfl
@[simp] theorem State.issue_commands (s : State) (c : HostCommand) : (s.issue c).commands = s.commands ++ [c] := rfl
@[simp] theorem State.issue_freeCount (s : State) (c : HostCommand) : (s.issue c).freeCount = s.freeCount := rfl

/-! ## Reader.feed -/

@[simp] theorem Reader.feed_window (r : Reader) (rev : Bool) (raw : Byte) : (r.feed rev raw).window = pushByte r.window (fedByte rev raw) := rfl
@[simp] theorem Reader.feed_pending (r : Reader) (rev : Bool) (raw : Byte) : (r.feed rev raw).pending = r.pending + 8 := rfl
@[simp] theorem Reader.feed_src (r : Reader) (rev : Bool) (raw : Byte) : (r.feed rev raw).src = r.src := rfl
@[simp] theorem Reader.feed_pos (r : Reader) (rev : Bool) (raw : Byte) : (r.feed rev raw).pos = r.pos := rfl

/-! ## Reader.consume -/

@[simp] theorem Reader.consume_window (r : Reader) (n : Nat) : (r.consume n).window = r.window := rfl
@[simp] theorem Reader.consume_pending (r : Reader) (n : Nat) : (r.consume n).pending = r.pending - n := rfl
@[simp] theorem Reader.consume_src (r : Reader) (n : Nat) : (r.consume n).src = r.src := rfl
@[simp] theorem Reader.consume_pos (r : Reader) (n : Nat) : (r.consume n).pos = r.pos := rfl

/-! ## Reader.fresh -/

@[simp] theorem Reader.fresh_window (bytes : List Byte) : (Reader.fresh bytes).window = 0 := rfl
@[simp] theorem Reader.fresh_pending (bytes : List Byte) : (Reader.fresh bytes).pending = 0 := rfl
@[simp] theorem Reader.fresh_src (bytes : List Byte) : (Reader.fresh bytes).src = bytes := rfl
@[simp] theorem Reader.fresh_pos (bytes : List Byte) : (Reader.fresh bytes).pos = 0 := rfl

end Sys2Proof.Machine
end

