-- ==== Sys2Proof/Laws/Ops.lean ====
section
/-! SUPPORT. For each shared operation, what it can do. Proofs about commands cite these lemmas. -/

namespace Sys2Proof.Machine

/-! ## Taking a command, the latch -/

theorem takeCommand_nil {s : State} (h : s.commands = []) : s.takeCommand = none := by
  simp [State.takeCommand, h]

theorem takeCommand_cons {s : State} {c : HostCommand} {rest : List HostCommand} (h : s.commands = c :: rest) :
    s.takeCommand = some (c.word, { s with din := c.din, presented := c.bytes, commands := rest }) := by
  simp [State.takeCommand, h]

theorem unlessLatched_latched {s : State} (h : s.fault = true) (body : State → State) :
    s.unlessLatched body = s.refuse := by
  simp [State.unlessLatched, h]

theorem unlessLatched_clear {s : State} (h : s.fault = false) (body : State → State) :
    s.unlessLatched body = body s := by
  simp [State.unlessLatched, h]

theorem illegalWord_latched {s : State} (h : s.fault = true) (w : CommandWord) : s.illegalWord w = s.refuse :=
  unlessLatched_latched h _

theorem illegalWord_clear {s : State} (h : s.fault = false) (w : CommandWord) :
    s.illegalWord w = s.raiseFault .illegalCommand (w.setWidth 32) :=
  unlessLatched_clear h _

theorem legalWidth_iff (n : Nat) : legalWidth n = true ↔ 1 ≤ n ∧ n ≤ 32 := by
  rw [legalWidth, Bool.and_eq_true, decide_eq_true_iff, decide_eq_true_iff]
  exact Iff.rfl

theorem legalWidth_of_widthOf {id : AttrId} {w : Nat} (h : widthOf id = some w) : 7 ≤ w ∧ w ≤ 32 := by
  have key : ∀ p ∈ literals.widthTable, 7 ≤ p.2 ∧ p.2 ≤ 32 := by decide
  have hm : (id, w) ∈ literals.widthTable := by
    obtain ⟨l₁, l₂, hl, -⟩ := List.lookup_eq_some_iff.1 h
    simp [hl]
  exact key _ hm

/-! ## Pulling and feeding -/

theorem pull_some {r : Reader} (h : r.pos < r.src.length) :
    r.pull = some (r.src[r.pos], { r with pos := r.pos + 1 }) := by
  simp [Reader.pull, h]

theorem pull_none {r : Reader} (h : r.src.length ≤ r.pos) : r.pull = none := by
  simp [Reader.pull, h]

@[simp] theorem feedMany_zero (r : Reader) (rev : Bool) : r.feedMany rev 0 = r := by
  simp [Reader.feedMany, pushBytes]

/-- Feeding `k + 1` bytes is feeding the next one and then `k` more. -/
theorem feedMany_succ {r : Reader} (rev : Bool) (k : Nat) (h : r.pos < r.src.length) :
    r.feedMany rev (k + 1) = (Reader.feed { r with pos := r.pos + 1 } rev r.src[r.pos]).feedMany rev k := by
  have hd : (r.src.drop r.pos).take (k + 1) = r.src[r.pos] :: (r.src.drop (r.pos + 1)).take k := by
    rw [List.drop_eq_getElem_cons h, List.take_succ_cons]
  simp only [Reader.feedMany, hd, Reader.feed_window, Reader.feed_pending, Reader.feed_src, Reader.feed_pos]
  congr 1 <;> omega

/-- The feed loop feeds nothing once enough bits are pending. -/
theorem fill_of_le {n : Nat} {rev : Bool} {r : Reader} (h : n ≤ r.pending) (fuel : Nat) :
    r.fill n rev fuel = .filled r := by
  cases fuel <;> simp [Reader.fill, Nat.not_lt.2 h]

/-- What a feed loop that finds enough bytes does: it feeds exactly `feedsNeeded` of them, in source order. -/
theorem fill_enough {n : Nat} {rev : Bool} (fuel : Nat) {r : Reader} (hf : feedsNeeded n r.pending ≤ fuel)
    (hs : r.pos + feedsNeeded n r.pending ≤ r.src.length) :
    r.fill n rev fuel = .filled (r.feedMany rev (feedsNeeded n r.pending)) := by
  induction fuel generalizing r with
  | zero =>
    rw [Nat.le_zero.1 hf, feedMany_zero]
    rfl
  | succ fuel ih =>
    by_cases hp : r.pending < n
    · have hk : feedsNeeded n r.pending = feedsNeeded n (r.pending + 8) + 1 := by
        simp only [feedsNeeded]; omega
      have hlt : r.pos < r.src.length := by omega
      rw [Reader.fill, if_pos hp, pull_some hlt, hk, feedMany_succ rev _ hlt]
      exact ih (r := Reader.feed { r with pos := r.pos + 1 } rev r.src[r.pos])
        (by rw [Reader.feed_pending]; dsimp only; omega)
        (by rw [Reader.feed_pending, Reader.feed_pos, Reader.feed_src]; dsimp only; omega)
    · have h : feedsNeeded n r.pending = 0 := by simp only [feedsNeeded]; omega
      rw [fill_of_le (by omega), h, feedMany_zero]

/-- What a feed loop that runs out of bytes does: it has pulled every byte there was. -/
theorem fill_short {n : Nat} {rev : Bool} (fuel : Nat) {r : Reader} (hf : feedsNeeded n r.pending ≤ fuel)
    (hp : r.pos ≤ r.src.length) (hs : r.src.length < r.pos + feedsNeeded n r.pending) :
    ∃ r', r.fill n rev fuel = .exhausted r' ∧ r'.src = r.src ∧ r'.pos = r.src.length := by
  induction fuel generalizing r with
  | zero => omega
  | succ fuel ih =>
    have hlt : r.pending < n := by simp only [feedsNeeded] at *; omega
    have hk : feedsNeeded n r.pending = feedsNeeded n (r.pending + 8) + 1 := by
      simp only [feedsNeeded]; omega
    rw [Reader.fill, if_pos hlt]
    rcases Nat.lt_or_ge r.pos r.src.length with h | h
    · rw [pull_some h]
      exact ih (r := Reader.feed { r with pos := r.pos + 1 } rev r.src[r.pos]) (by simp; omega) (by simp; omega)
        (by simp; omega)
    · exact ⟨r, by rw [pull_none h], rfl, by omega⟩

/-- The feed loop never changes the source and never moves back. -/
theorem fill_src {n : Nat} {rev : Bool} (fuel : Nat) (r : Reader) :
    (∃ r', r.fill n rev fuel = .filled r' ∧ r'.src = r.src ∧ r.pos ≤ r'.pos) ∨
      (∃ r', r.fill n rev fuel = .exhausted r' ∧ r'.src = r.src ∧ r.pos ≤ r'.pos) := by
  induction fuel generalizing r with
  | zero => exact .inl ⟨r, rfl, rfl, le_rfl⟩
  | succ fuel ih =>
    rw [Reader.fill]
    split
    · rcases Nat.lt_or_ge r.pos r.src.length with h | h
      · rw [pull_some h]
        rcases ih (Reader.feed { r with pos := r.pos + 1 } rev r.src[r.pos]) with ⟨r', h1, h2, h3⟩ | ⟨r', h1, h2, h3⟩
        · exact .inl ⟨r', h1, h2, by simp at h3; omega⟩
        · exact .inr ⟨r', h1, h2, by simp at h3; omega⟩
      · exact .inr ⟨r, by rw [pull_none h], rfl, le_rfl⟩
    · exact .inl ⟨r, rfl, rfl, le_rfl⟩

/-! ## FIELD -/

/-- `FIELD n` of an encodable width is the two commands of R77. -/
theorem performField_encodable {s t : State} {n : Nat} (h : n < 64)
    (ht : s.perform (commandOf (.read n true) 0 []) = .next t) :
    s.performField n = t.perform (commandOf (.bitrev n) t.result []) := by
  have hw : widthEncodable n = true := decide_eq_true h
  rw [State.performField, if_pos hw, ht]

/-- `FIELD n` of any other width issues nothing. -/
theorem performField_unencodable {s : State} {n : Nat} (h : 64 ≤ n) : s.performField n = .next s := by
  simp [State.performField, widthEncodable, Nat.not_lt.2 h]

/-! ## Read -/

/-- `Read` with an illegal width raises, and changes nothing else (R163). -/
theorem readField_illegal {s : State} {n : Nat} (h : n < 1 ∨ 32 < n) (rev : Bool) :
    s.readField n rev = .raised (s.raiseFault .preconditionViolation (widthInfo n)) := by
  have : legalWidth n = false := by
    rw [Bool.eq_false_iff]; intro hl; have := (legalWidth_iff n).1 hl; omega
  simp [State.readField, this]

/-- `Read` where the source holds enough bytes (R103). -/
theorem readField_value {s : State} {n : Nat} (h1 : 1 ≤ n) (h2 : n ≤ 32) (rev : Bool)
    (hs : s.bsr.pos + feedsNeeded n s.bsr.pending ≤ s.bsr.src.length) :
    s.readField n rev =
      .value ((s.bsr.feedMany rev (feedsNeeded n s.bsr.pending)).field n)
        { s with bsr := (s.bsr.feedMany rev (feedsNeeded n s.bsr.pending)).consume n } := by
  have hf : feedsNeeded n s.bsr.pending ≤ n := by simp only [feedsNeeded]; omega
  simp [State.readField, (legalWidth_iff n).2 ⟨h1, h2⟩, fill_enough n hf hs]

/-- `Read` where the source ends first: the source is spent, and nothing is known of the window (R110). -/
theorem readField_short {s : State} {n : Nat} (h1 : 1 ≤ n) (h2 : n ≤ 32) (rev : Bool)
    (hp : s.bsr.pos ≤ s.bsr.src.length)
    (hs : s.bsr.src.length < s.bsr.pos + feedsNeeded n s.bsr.pending) :
    s.readField n rev =
      .raised ((State.loseWindow { s with bsr := { s.bsr with pos := s.bsr.src.length } }).raiseFault
        .endOfStream (widthInfo n)) := by
  have hf : feedsNeeded n s.bsr.pending ≤ n := by simp only [feedsNeeded]; omega
  obtain ⟨r', hr, hsrc, hpos⟩ := fill_short (rev := rev) n hf hp hs
  simp [State.readField, (legalWidth_iff n).2 ⟨h1, h2⟩, hr, State.loseWindow, hsrc, hpos]

/-- All that `Read` can do, from any reader: reject the width, take a field after feeding, or run out of bytes. -/
theorem readField_cases (s : State) (n : Nat) (rev : Bool) :
    ((n < 1 ∨ 32 < n) ∧ s.readField n rev = .raised (s.raiseFault .preconditionViolation (widthInfo n))) ∨
      (1 ≤ n ∧ n ≤ 32 ∧ ∃ r, s.bsr.fill n rev n = .filled r ∧ r.src = s.bsr.src ∧ s.bsr.pos ≤ r.pos ∧
        s.readField n rev = .value (r.field n) { s with bsr := r.consume n }) ∨
      (1 ≤ n ∧ n ≤ 32 ∧ ∃ r, s.bsr.fill n rev n = .exhausted r ∧ r.src = s.bsr.src ∧ s.bsr.pos ≤ r.pos ∧
        s.readField n rev =
          .raised ((State.loseWindow { s with bsr := r }).raiseFault .endOfStream (widthInfo n))) := by
  by_cases hl : legalWidth n = true
  · obtain ⟨h1, h2⟩ := (legalWidth_iff n).1 hl
    rcases fill_src (rev := rev) n s.bsr with ⟨r, hr, hs, hp⟩ | ⟨r, hr, hs, hp⟩
    · exact .inr (.inl ⟨h1, h2, r, hr, hs, hp, by simp [State.readField, hl, hr]⟩)
    · exact .inr (.inr ⟨h1, h2, r, hr, hs, hp, by simp [State.readField, hl, hr]⟩)
  · have h : n < 1 ∨ 32 < n := by
      by_contra hn
      exact hl ((legalWidth_iff n).2 (by omega))
    exact .inl ⟨h, readField_illegal h rev⟩

end Sys2Proof.Machine
end

