-- ==== Sys2Proof/Laws/PerInstr.lean ====
section
/-! SUPPORT. Statements about every command as syntax, proved for each constructor of Instr. -/

namespace Sys2Proof.Laws

/-- Every command's word has the fields of 30_encoding.md R70: its `OP`, `RSV = 0`, its `R` and its `N`. -/
def EncodeFields.Statement (i : Instr) : Prop :=
  opField (encode i) = i.opcode ∧ rsvField (encode i) = 0 ∧ rField (encode i) = i.reverseBit ∧
    nField (encode i) = BitVec.ofNat 6 i.width

/-- Four fields put side by side are read back by the field extractors. -/
theorem fields_of_append (op : BitVec 4) (r : Bool) (n : BitVec 6) :
    opField (op ++ (0 : BitVec 5) ++ BitVec.ofBool r ++ n) = op ∧
      rsvField (op ++ (0 : BitVec 5) ++ BitVec.ofBool r ++ n) = 0 ∧
      rField (op ++ (0 : BitVec 5) ++ BitVec.ofBool r ++ n) = r ∧
      nField (op ++ (0 : BitVec 5) ++ BitVec.ofBool r ++ n) = n := by
  have bit : ∀ j, (op ++ (0 : BitVec 5) ++ BitVec.ofBool r ++ n).getLsbD j =
      if j < 6 then n.getLsbD j
      else if j - 6 < 1 then (BitVec.ofBool r).getLsbD (j - 6)
      else if j - 6 - 1 < 5 then (0 : BitVec 5).getLsbD (j - 6 - 1)
      else op.getLsbD (j - 6 - 1 - 5) := by
    intro j
    simp only [BitVec.getLsbD_append]
  refine ⟨?_, ?_, ?_, ?_⟩
  · refine BitVec.eq_of_getLsbD_eq fun i hi => ?_
    rw [opField, BitVec.getLsbD_extractLsb']
    refine (congrArg _ (bit (12 + i))).trans ?_
    simp [hi, show ¬ 12 + i < 6 by omega, show ¬ 12 + i - 6 < 1 by omega, show ¬ 12 + i - 6 - 1 < 5 by omega,
      show 12 + i - 6 - 1 - 5 = i by omega]
  · refine BitVec.eq_of_getLsbD_eq fun i hi => ?_
    rw [rsvField, BitVec.getLsbD_extractLsb']
    refine (congrArg _ (bit (7 + i))).trans ?_
    simp [show ¬ 7 + i < 6 by omega, show ¬ 7 + i - 6 < 1 by omega, show 7 + i - 6 - 1 < 5 by omega]
  · exact (bit 6).trans (by simp)
  · refine BitVec.eq_of_getLsbD_eq fun i hi => ?_
    rw [nField, BitVec.getLsbD_extractLsb']
    refine (congrArg _ (bit (0 + i))).trans ?_
    simp [hi]

theorem EncodeFields.stat : EncodeFields.Statement .stat := fields_of_append _ _ _
theorem EncodeFields.init : EncodeFields.Statement .init := fields_of_append _ _ _
theorem EncodeFields.read (n : Nat) (rev : Bool) : EncodeFields.Statement (.read n rev) := fields_of_append _ _ _
theorem EncodeFields.bitrev (n : Nat) : EncodeFields.Statement (.bitrev n) := fields_of_append _ _ _
theorem EncodeFields.next : EncodeFields.Statement .next := fields_of_append _ _ _

end Sys2Proof.Laws
end

