-- ==== Sys2Proof/Tests/Slice0.lean ====
section
/-! SUPPORT. Tests on small states, each about one step: the expected values are those of spec/95_test_vectors.md or
worked out by hand from the spec's encodings. Then one witness for the hypotheses of each statement that has some. -/

namespace Sys2Proof.Tests

open Sys2Proof.Machine

/-- The state right after reset, with a source bound. -/
def bound (bytes : List Byte) : State := { State.reset with bsr := Reader.fresh bytes }

/-- A reader in the middle of a source. -/
def midway (window : Window) (pending : Nat) (src : List Byte) (pos : Nat) : State :=
  { State.reset with bsr := { window := window, pending := pending, src := src, pos := pos } }

/-- A state with a fault latched and a pair emitted before it. -/
def latched : State :=
  { State.reset with
    fault := true, cause := .unknownAttributeID, faultInfo := 0xC8, result := 7, outId := 3, outValue := 5
    outSeq := [⟨3, 5⟩] }

/-- A state with one command issued. -/
def issued (s : State) (word : CommandWord) (din : Word32) (bytes : List Byte) : State :=
  { s with commands := [⟨word, din, bytes⟩] }

/-- A next state that meets `p`. -/
def gives (o : Host.Outcome State Fault Refusal) (p : State → Bool) : Bool :=
  match o with
  | .next t => p t
  | .fault _ => false
  | .refused _ => false

/-! ## WellFormed -/

theorem test_read_width_64_ill_formed : (Instr.read 64 true).wellFormed = false := by decide
theorem test_bitrev_width_64_ill_formed : (Instr.bitrev 64).wellFormed = false := by decide
theorem test_read_width_63_well_formed : (Instr.read 63 false).wellFormed = true := by decide

/-! ## Decoding: the words written out bit by bit from 30_encoding.md R70, R72 -/

theorem test_decode_stat : decode 0b0000_00000_0_000000 = .ok .stat := by decide
theorem test_decode_init : decode 0b0001_00000_0_000000 = .ok .init := by decide
theorem test_decode_read_rev : decode 0b0010_00000_1_001001 = .ok (.read 9 true) := by decide
theorem test_decode_read_widest : decode 0b0010_00000_0_111111 = .ok (.read 63 false) := by decide
theorem test_decode_bitrev : decode 0b0011_00000_0_100000 = .ok (.bitrev 32) := by decide
theorem test_decode_next : decode 0b0100_00000_0_000000 = .ok .next := by decide
theorem test_decode_reserved_opcode : decode 0b0101_00000_0_000000 = .error .reservedOpcode := by decide
theorem test_decode_reserved_field : decode 0b0010_00001_0_000000 = .error .nonzeroReserved := by decide
theorem test_decode_reverse_bit : decode 0b0011_00000_1_000000 = .error .nonzeroReverse := by decide
theorem test_decode_width_bits : decode 0b0001_00000_0_000001 = .error .nonzeroWidth := by decide
theorem test_decodeTableWord : decodeTableWord 16 0x2048 = some (.read 8 true) := by decide
theorem test_encode_read : encode (.read 8 true) = 0x2048 := by decide

/-! ## Primitives (95_test_vectors.md 2.1) -/

theorem test_rev8 : rev8 0xB0 = 0x0D ∧ rev8 0x12 = 0x48 ∧ rev8 0x0F = 0xF0 := by decide
theorem test_bitReverse : bitReverse 0x6 9 = 0x0C0 ∧ bitReverse 0x5 10 = 0x280 ∧ bitReverse 0xF0 4 = 0 ∧
    bitReverse 0x12345678 32 = 0x1E6A2C48 := by decide

/-! ## Commands (95_test_vectors.md 2.2 to 2.5 and P1 to P6) -/

/-- P3 step 4. -/
theorem test_stat_while_latched : gives (exec .stat { latched with emit := true })
    (fun t => t.status == 0x22 && t.faultInfo == 0xC8 && t.result == 7) = true := by decide

/-- P3 step 5. -/
theorem test_init_clears_latch : gives (exec .init { latched with presented := [0xFF, 0x01] })
    (fun t => t.status == 0 && t.faultInfo == 0 && t.bsr.src == [0xFF, 0x01] && t.outSeq == []) = true := by decide

/-- P1 step 3. -/
theorem test_read_crosses_byte : gives (exec (.read 8 false) (midway 0xAB 4 [0xAB, 0xCD] 1))
    (fun t => t.result == 0xBC && t.bsr.window == 0xABCD && t.bsr.pending == 4 && t.bsr.pos == 2) = true := by decide

/-- 2.2, `READ.REV 32` after `READ.REV 4`: 32 bits from 5 bytes. -/
theorem test_read_rev_32_from_five_bytes :
    gives (exec (.read 32 true) (midway 0x48 4 [0x12, 0x34, 0x56, 0x78, 0x9A] 1))
      (fun t => t.result == 0x82C6A1E5 && t.bsr.pending == 4 && t.bsr.pos == 5) = true := by decide

/-- S6: no partial value at the end of the stream. -/
theorem test_read_end_of_stream : gives (exec (.read 9 false) (bound [0xAB]))
    (fun t => t.status == 0x12 && t.faultInfo == 9 && t.result == 0 && t.bsr.pos == 1) = true := by decide

/-- 2.3: bits above the width are ignored. -/
theorem test_bitrev_ignores_high_bits : gives (exec (.bitrev 1) { bound [] with din := 0xFFFFFFFF })
    (fun t => t.result == 1 && t.status == 0) = true := by decide

/-- 2.3: `0x303F`. -/
theorem test_bitrev_width_63 : gives (exec (.bitrev 63) { bound [] with result := 5 })
    (fun t => t.result == 5 && t.status == 0x32 && t.faultInfo == 0x3F) = true := by decide

/-- S5: a resource value is scaled. -/
theorem test_next_scales_resource : gives (exec .next (bound [0x06, 0x00, 0x14, 0xC0, 0x7F]))
    (fun t => t.outId == 6 && t.outValue == 10 && t.status == 0x04 && t.bsr.pos == 4 && t.bsr.pending == 2) = true := by
  decide

/-- S7: an unknown ID is no zero-width field. -/
theorem test_next_unknown_id : gives (exec .next (bound [0xC8, 0x00]))
    (fun t => t.status == 0x22 && t.faultInfo == 0xC8 && t.bsr.pos == 2 && t.bsr.pending == 7 && t.outSeq == []) =
      true := by decide

/-- 2.5: `0x2080` is illegal, and only the latch and `EMIT` change. -/
theorem test_step_illegal_word : gives (step (issued (bound [0xAB, 0xCD, 0xEF]) 0x2080 0x12345678 []))
    (fun t => t.status == 0x42 && t.faultInfo == 0x2080 && t.bsr.pos == 0 && t.commands == []) = true := by decide

/-- 2.5: a command after a fault is refused. -/
theorem test_step_refused : gives (step (issued latched 0x2048 0 []))
    (fun t => t.status == 0x22 && t.faultInfo == 0xC8 && t.result == 7) = true := by decide

/-- The host's question after reset: `READ 8` is fetched and runs (R191). -/
theorem test_withFetchWord : gives (step (State.reset.withFetchWord 16 0x2008))
    (fun t => t.status == 0x12 && t.faultInfo == 8) = true := by decide

/-- P4 steps 2 and 3: `FIELD 9` leaves the ID 6. -/
theorem test_field_reads_id : gives ((bound [0x06, 0x00, 0x14, 0xC0, 0x7F]).performField 9)
    (fun t => t.result == 6 && t.bsr.pos == 2 && t.bsr.pending == 7) = true := by decide

/-- `FIELD 72` is not `FIELD 8` (notes/assumptions/8.md). -/
theorem test_field_72_issues_nothing : gives ((bound [0x06, 0x00]).performField 72) (· == bound [0x06, 0x00]) = true := by
  decide

theorem test_readLine_init : readLine "INIT src=[0xB0, 0b11]".toList = some (.init [0xB0, 3]) := by decide
theorem test_readLine_bitrev : readLine "BITREV 9, 0x1".toList = some (.bitrev 9 1) := by decide

/-! ## Witnesses: for each statement with hypotheses, a state and operands that meet all of them -/

theorem witness_DecodeInvertsEncode : (Instr.read 63 true).wellFormed = true := by decide
theorem witness_EncodeInvertsDecode : decode 0x303F = .ok (.bitrev 63) := by decide
theorem witness_IllegalWordRaises : (issued (bound []) 0xF000 0 []).commands = [⟨0xF000, 0, []⟩] ∧
    decode 0xF000 = .error .reservedOpcode ∧ (issued (bound []) 0xF000 0 []).fault = false := by decide
theorem witness_AssemblerWords : (63 : Nat) < 64 ∧ (AsmLine.read 63).assemble = some ⟨0x203F, 0, []⟩ := by decide
theorem witness_StepRunsDecodedCommand : (issued (bound []) 0x4000 0 []).commands = [⟨0x4000, 0, []⟩] ∧
    decode 0x4000 = .ok .next := by decide
theorem witness_StepWaitsForTheHost : State.reset.commands = [] := by decide
theorem witness_LatchRefusesCommands : (issued latched 0x4000 0 []).commands = [⟨0x4000, 0, []⟩] ∧
    (issued latched 0x4000 0 []).fault = true ∧ decode 0x4000 ≠ .ok .stat ∧ decode 0x4000 ≠ .ok .init := by decide
theorem witness_CommandsLeaveTheHostPort : ∃ t, exec .next (bound [0x00, 0x0A, 0x60]) = .next t := ⟨_, rfl⟩
theorem witness_InitStartsFreshSession : State.reset.presented = [] ∧ 1 ≤ 32 ∧ 32 ≤ 32 := by decide
theorem witness_BitrevReversesOperand : (bound []).fault = false ∧ 1 ≤ 32 ∧ 32 ≤ 32 := by decide
theorem witness_IllegalWidthRaises_zero : (bound []).fault = false ∧ (0 = 0 ∨ 32 < 0) := by decide
theorem witness_IllegalWidthRaises_above : (bound []).fault = false ∧ (33 = 0 ∨ 32 < 33) := by decide
theorem witness_Rev8ReversesTheByte : (7 : Nat) < 8 := by decide
theorem witness_BitReverseBits_below : (1 ≤ 32 ∧ 32 ≤ 32) ∧ 31 < 32 := by decide
theorem witness_BitReverseBits_above : (1 ≤ 1 ∧ 1 ≤ 32) ∧ 1 ≤ 1 := by decide
theorem witness_BitReverseInvolution : 1 ≤ 9 ∧ 9 ≤ 32 ∧ (0x1FF : Word32).toNat < 2 ^ 9 := by decide
theorem witness_ReadExtractsField : (midway 0xAB 4 [0xAB, 0xCD] 1).fault = false ∧ 1 ≤ 12 ∧ 12 ≤ 32 ∧
    (midway 0xAB 4 [0xAB, 0xCD] 1).bsr.pos + (12 - (midway 0xAB 4 [0xAB, 0xCD] 1).bsr.pending + 7) / 8 ≤
      (midway 0xAB 4 [0xAB, 0xCD] 1).bsr.src.length := by decide
theorem witness_ReadAtEndOfStream : (bound [0xAB]).fault = false ∧ 1 ≤ 9 ∧ 9 ≤ 32 ∧
    (bound [0xAB]).bsr.pos ≤ (bound [0xAB]).bsr.src.length ∧ (bound [0xAB]).bsr.bitsLeft < 9 := by decide
theorem witness_ReadReturnsFedStreamBits : (midway 0x80 4 [0x01, 0x01] 1).fault = false ∧ 1 ≤ 8 ∧ 8 ≤ 32 ∧
    (midway 0x80 4 [0x01, 0x01] 1).bsr.pending ≤ 7 ∧ (midway 0x80 4 [0x01, 0x01] 1).bsr.hasFed [0x80] ∧
    (midway 0x80 4 [0x01, 0x01] 1).bsr.position + 8 ≤ 8 * (midway 0x80 4 [0x01, 0x01] 1).bsr.src.length :=
  ⟨rfl, by decide, by decide, by decide, ⟨rfl, by decide, by decide⟩, by decide⟩
theorem witness_ReadDeterminedByReader : ∃ t t', (bound [0xAB]).fault = false ∧
    { bound [0xAB] with result := 1 }.fault = false ∧ { bound [0xAB] with result := 1 }.bsr = (bound [0xAB]).bsr ∧
    exec (.read 8 true) (bound [0xAB]) = .next t ∧
    exec (.read 8 true) { bound [0xAB] with result := 1 } = .next t' ∧ t.fault = false :=
  ⟨_, _, rfl, rfl, rfl, rfl, rfl, by decide⟩
theorem witness_ReadDeterminedByReader_fault : ∃ t t', (bound []).fault = false ∧
    { bound [] with result := 1 }.fault = false ∧ { bound [] with result := 1 }.bsr = (bound []).bsr ∧
    exec (.read 8 true) (bound []) = .next t ∧ exec (.read 8 true) { bound [] with result := 1 } = .next t' ∧
    t.fault = true :=
  ⟨_, _, rfl, rfl, rfl, rfl, rfl, by decide⟩
theorem witness_FieldReadsLsbFirst_enough : (bound [0x06, 0x00]).commands = [] ∧ (bound [0x06, 0x00]).fault = false ∧
    1 ≤ 16 ∧ 16 ≤ 32 ∧ (bound [0x06, 0x00]).bsr.pending ≤ 7 ∧
    (bound [0x06, 0x00]).bsr.pos ≤ (bound [0x06, 0x00]).bsr.src.length ∧
    16 ≤ (bound [0x06, 0x00]).bsr.bitsLeft := by decide
theorem witness_FieldReadsLsbFirst_short : (bound [0x06, 0x00]).commands = [] ∧ (bound [0x06, 0x00]).fault = false ∧
    1 ≤ 17 ∧ 17 ≤ 32 ∧ (bound [0x06, 0x00]).bsr.pending ≤ 7 ∧
    (bound [0x06, 0x00]).bsr.pos ≤ (bound [0x06, 0x00]).bsr.src.length ∧
    (bound [0x06, 0x00]).bsr.bitsLeft < 17 := by decide
/-- The first record of P2: ID 0, 10 bits, value 5; its 19 bits lie in 24. -/
theorem witness_NextEmitsRecord : (bound [0x00, 0x0A, 0x60]).fault = false ∧ (bound [0x00, 0x0A, 0x60]).ard = .reading ∧
    (bound [0x00, 0x0A, 0x60]).bsr.pending ≤ 7 ∧ 0 = (bound [0x00, 0x0A, 0x60]).bsr.fieldAhead 0 9 ∧
    attrWidth 0 = some 10 ∧ 9 + 10 ≤ (bound [0x00, 0x0A, 0x60]).bsr.bitsLeft ∧
    (bound [0x00, 0x0A, 0x60]).bsr.fieldAhead 9 10 = 5 := by decide
theorem witness_NextStopsAtTerminator : (bound [0xFF, 0x01]).fault = false ∧ (bound [0xFF, 0x01]).ard = .reading ∧
    (bound [0xFF, 0x01]).bsr.pending ≤ 7 ∧ (bound [0xFF, 0x01]).bsr.fieldAhead 0 9 = 0x1FF ∧
    9 ≤ (bound [0xFF, 0x01]).bsr.bitsLeft := by decide
theorem witness_NextRejectsUnknownId_low : (bound [0x10, 0x00]).fault = false ∧ (bound [0x10, 0x00]).ard = .reading ∧
    (bound [0x10, 0x00]).bsr.pending ≤ 7 ∧ 16 = (bound [0x10, 0x00]).bsr.fieldAhead 0 9 ∧
    9 ≤ (bound [0x10, 0x00]).bsr.bitsLeft := by decide
theorem witness_NextRejectsUnknownId_high : (bound [0xFE, 0x01]).fault = false ∧ (bound [0xFE, 0x01]).ard = .reading ∧
    (bound [0xFE, 0x01]).bsr.pending ≤ 7 ∧ 510 = (bound [0xFE, 0x01]).bsr.fieldAhead 0 9 ∧
    9 ≤ (bound [0xFE, 0x01]).bsr.bitsLeft := by decide
theorem witness_NextAtEndOfStream_id : (bound [0x00]).fault = false ∧ (bound [0x00]).ard = .reading ∧
    (bound [0x00]).bsr.pending ≤ 7 ∧ (bound [0x00]).bsr.pos ≤ (bound [0x00]).bsr.src.length ∧
    (bound [0x00]).bsr.bitsLeft < 9 := by decide
/-- 2.4: end of stream in the value of ID 0. -/
theorem witness_NextAtEndOfStream_value : (bound [0x00, 0x0A]).fault = false ∧ (bound [0x00, 0x0A]).ard = .reading ∧
    (bound [0x00, 0x0A]).bsr.pending ≤ 7 ∧ (bound [0x00, 0x0A]).bsr.pos ≤ (bound [0x00, 0x0A]).bsr.src.length ∧
    9 ≤ (bound [0x00, 0x0A]).bsr.bitsLeft ∧ attrWidth ((bound [0x00, 0x0A]).bsr.fieldAhead 0 9) = some 10 ∧
    (bound [0x00, 0x0A]).bsr.bitsLeft < 9 + 10 := by decide
theorem witness_NextAfterDoneIsIdle : { bound [] with ard := .done }.fault = false ∧
    { bound [] with ard := .done }.ard = .done := by decide
theorem witness_ReversedFieldsAreSourceFields : ∃ t, (midway 0x80 4 [0x01, 0x01] 1).fault = false ∧
    (midway 0x80 4 [0x01, 0x01] 1).bsr.pendingReversed ∧
    exec (.read 8 true) (midway 0x80 4 [0x01, 0x01] 1) = .next t ∧ t.fault = false :=
  ⟨_, rfl, ⟨by decide, by decide, by decide⟩, rfl, by decide⟩
theorem witness_WidthTableEntries : widthOf 15 = some 25 ∧
    ∃ t, (bound []).fault = false ∧ exec .next (bound []) = .next t ∧ t.fault = true :=
  ⟨by decide, _, rfl, rfl, by decide⟩
theorem witness_ResourceScaling_least : 6 ≤ (6 : AttrId).toNat ∧ (6 : AttrId).toNat ≤ 11 ∧ (255 : Word32).toNat < 256 := by
  decide
theorem witness_ResourceScaling_most : 6 ≤ (11 : AttrId).toNat ∧ (11 : AttrId).toNat ≤ 11 ∧
    (0x1FFFFF : Word32).toNat < 2 ^ 21 := by decide
theorem witness_ResetValues : (issued (bound [0xAB]) 0x1000 0 []).presented = [] := by decide
theorem witness_CommandsBeforeFirstInit : { State.reset with din := 1 }.bsr = State.reset.bsr ∧
    State.reset.fault = false ∧ State.reset.ard = .reading ∧ 1 ≤ 8 ∧ 8 ≤ 32 := by decide
/-- A reset state with NEXT issued meets the invariant, and its step answers a next state. -/
theorem witness_StepKeepsInv : Inv (issued State.reset 0x4000 0 []) ∧
    ∃ t, step (issued State.reset 0x4000 0 []) = .next t :=
  ⟨⟨by decide, by decide, by decide, by decide, by decide, by decide, by decide, by decide, by decide, by decide,
    by simp [issued, State.reset]⟩, _, rfl⟩
theorem witness_PendingBound : ∃ t, ((bound [0xFF]).fault = false → (bound [0xFF]).bsr.pending ≤ 7) ∧
    step (issued (bound [0xFF]) 0x2001 0 []) = .next t ∧ t.fault = false ∧ t.bsr.pending = 7 :=
  ⟨_, by decide, rfl, by decide, by decide⟩
theorem witness_PendingBound_fill : (midway 0x48 1 [1, 2, 3, 4] 0).bsr.pending ≤ 7 ∧ 1 ≤ 32 ∧ 32 ≤ 32 := by decide
theorem witness_LatchLeftOnlyByInit : ∃ t, (issued latched 0x1000 0 []).fault = true ∧
    step (issued latched 0x1000 0 []) = .next t ∧ t.fault = false := ⟨_, rfl, rfl, by decide⟩
theorem witness_LatchLeftOnlyByInit_kept : ∃ t, (issued latched 0x4000 0 []).fault = true ∧
    step (issued latched 0x4000 0 []) = .next t ∧ t.fault = true := ⟨_, rfl, rfl, by decide⟩
theorem witness_FaultEntryKeepsOutputs : ∃ t, (issued (bound []) 0x4000 0 []).fault = false ∧
    step (issued (bound []) 0x4000 0 []) = .next t ∧ t.fault = true := ⟨_, rfl, rfl, by decide⟩
theorem witness_FaultCausesAndInfo_illegal : ∃ t, (issued (bound []) 0x5000 0 []).commands = [⟨0x5000, 0, []⟩] ∧
    (issued (bound []) 0x5000 0 []).fault = false ∧ step (issued (bound []) 0x5000 0 []) = .next t ∧ t.fault = true :=
  ⟨_, rfl, rfl, rfl, by decide⟩
theorem witness_FaultCausesAndInfo_read : ∃ t, (issued (bound []) 0x2021 0 []).commands = [⟨0x2021, 0, []⟩] ∧
    (issued (bound []) 0x2021 0 []).fault = false ∧ step (issued (bound []) 0x2021 0 []) = .next t ∧ t.fault = true :=
  ⟨_, rfl, rfl, rfl, by decide⟩
theorem witness_FaultCausesAndInfo_bitrev : ∃ t, (issued (bound []) 0x3000 0 []).commands = [⟨0x3000, 0, []⟩] ∧
    (issued (bound []) 0x3000 0 []).fault = false ∧ step (issued (bound []) 0x3000 0 []) = .next t ∧ t.fault = true :=
  ⟨_, rfl, rfl, rfl, by decide⟩
theorem witness_FaultCausesAndInfo_next : ∃ t, (issued (bound [0xC8, 0]) 0x4000 0 []).commands = [⟨0x4000, 0, []⟩] ∧
    (issued (bound [0xC8, 0]) 0x4000 0 []).fault = false ∧ step (issued (bound [0xC8, 0]) 0x4000 0 []) = .next t ∧
    t.fault = true := ⟨_, rfl, rfl, rfl, by decide⟩
/-- For the statements about a command that emits (EmitMarksEmittingNext, OutputsWrittenOnlyByEmit, ArdTransitions,
SourceAndCursor). -/
theorem witness_emitting_step : ∃ t, (issued (bound [0x00, 0x0A, 0x60]) 0x4000 0 []).commands = [⟨0x4000, 0, []⟩] ∧
    step (issued (bound [0x00, 0x0A, 0x60]) 0x4000 0 []) = .next t ∧ t.emit = true ∧ t.outSeq = [⟨0, 5⟩] :=
  ⟨_, rfl, rfl, by decide, by decide⟩
/-- For the same statements: a command that emits nothing and is not INIT. -/
theorem witness_quiet_step : ∃ t, (issued latched 0x0000 0 []).commands = [⟨0x0000, 0, []⟩] ∧
    step (issued latched 0x0000 0 []) = .next t ∧ t.emit = false ∧ decode 0x0000 ≠ .ok .init ∧
    decode 0x0000 ≠ .ok .next ∧ ∀ n rev, decode 0x0000 ≠ .ok (.read n rev) :=
  ⟨_, rfl, rfl, by decide, by decide, by decide, fun _ _ h => by cases test_decode_stat.symm.trans h⟩
/-- For the same statements: INIT. -/
theorem witness_init_step : ∃ t, (issued { latched with ard := .done } 0x1000 0 [0xAB]).commands = [⟨0x1000, 0, [0xAB]⟩] ∧
    step (issued { latched with ard := .done } 0x1000 0 [0xAB]) = .next t ∧ decode 0x1000 = .ok .init ∧
    t.ard = .reading := ⟨_, rfl, rfl, by decide, by decide⟩
theorem witness_ResultWriters : ∃ t, (issued (bound [0xAB]) 0x2008 0 []).commands = [⟨0x2008, 0, []⟩] ∧
    step (issued (bound [0xAB]) 0x2008 0 []) = .next t ∧ t.fault = false ∧ t.result = 0xAB :=
  ⟨_, rfl, rfl, by decide, by decide⟩
theorem witness_ArdTransitions_done : ∃ t, (issued (bound [0xFF, 0x01]) 0x4000 0 []).commands = [⟨0x4000, 0, []⟩] ∧
    step (issued (bound [0xFF, 0x01]) 0x4000 0 []) = .next t ∧ (bound [0xFF, 0x01]).ard = .reading ∧ t.ard = .done :=
  ⟨_, rfl, rfl, by decide, by decide⟩
theorem witness_StaleBitsUnobservable : ∃ t, (midway 0x05 4 [0xAB] 0).sameLiveBits (midway 0xF5 4 [0xAB] 0) ∧
    step (midway 0x05 4 [0xAB] 0) = .next t :=
  ⟨_, ⟨⟨rfl, rfl, rfl, by decide⟩, rfl⟩, rfl⟩
theorem witness_LatchHidesWindow : ∃ t, (issued latched 0x1000 0 []).fault = true ∧
    (issued latched 0x1000 0 []).sameButWindow
      { issued latched 0x1000 0 [] with bsr := { latched.bsr with window := 7, pending := 3 }, freeCount := 2 } ∧
    step (issued latched 0x1000 0 []) = .next t ∧ t.fault = false := ⟨_, rfl, rfl, rfl, by decide⟩
theorem witness_InstancesAreIndependent : ∃ m', stepInstance 0 [issued (bound []) 0x0000 0 [], latched] = .next m' ∧
    [issued (bound []) 0x0000 0 [], latched][0]? = some (issued (bound []) 0x0000 0 []) := ⟨_, rfl, rfl⟩
theorem witness_SessionEndsInBoundedNexts : ∃ s : State, s.fault = true ∧
    s.commands = commandOf .init 0 [0xFF, 0x01] :: List.replicate (sessionBound [0xFF, 0x01]) (commandOf .next 0 []) :=
  ⟨State.mk latched.bsr .done true .illegalCommand 1 2 3 4 false [] 0 [] _ 0, rfl, rfl⟩
theorem witness_SessionDecodesRecordStream : latched.commands = [] := by decide
theorem witness_SessionObservation : ∃ s : State, s.bsr = Reader.fresh [0xFF, 0x01] ∧ s.ard = .reading ∧
    s.fault = false ∧ s.outSeq = [] ∧
    s.commands = List.replicate (sessionBound [0xFF, 0x01]) (commandOf .next 0 []) :=
  ⟨State.mk (Reader.fresh [0xFF, 0x01]) .reading false .noFault 0 2 0 0 false [] 0 [] _ 0, rfl, rfl, rfl, rfl, rfl⟩

end Sys2Proof.Tests
end

/-! ## The bit primitives `rev8` and `bitReverse` (00_scope.md R13, R14) -/

section
namespace Sys2Proof.Proofs

open Sys2Proof.Machine

/-- `BitVec.ofNat` cuts off nothing of a reversal of at most `w` bits. -/
theorem ofNat_reverseLow_getLsbD {w n : Nat} (x i : Nat) (hn : n ≤ w) :
    (BitVec.ofNat w (reverseLow n x)).getLsbD i = (decide (i < n) && x.testBit (n - 1 - i)) := by
  rw [BitVec.getLsbD_ofNat, reverseLow_testBit]
  by_cases hi : i < n
  · simp [hi, hi.trans_le hn]
  · simp [hi]

/-- Every bit of `rev8`, in range or not (R13). -/
theorem rev8_getLsbD (b : Byte) (i : Nat) :
    (rev8 b).getLsbD i = (decide (i < 8) && b.getLsbD (7 - i)) :=
  ofNat_reverseLow_getLsbD b.toNat i le_rfl

/-- Every bit of `bitReverse`, at every width the 32-bit operand has (R14). -/
theorem bitReverse_getLsbD (x : Word32) {n : Nat} (i : Nat) (hn : n ≤ 32) :
    (bitReverse x n).getLsbD i = (decide (i < n) && x.getLsbD (n - 1 - i)) :=
  ofNat_reverseLow_getLsbD x.toNat i hn

theorem bitReverse_getLsbD_of_lt (x : Word32) {n i : Nat} (hn : n ≤ 32) (hi : i < n) :
    (bitReverse x n).getLsbD i = x.getLsbD (n - 1 - i) := by
  simp [bitReverse_getLsbD x i hn, hi]

theorem bitReverse_getLsbD_of_ge (x : Word32) {n i : Nat} (hn : n ≤ 32) (hi : n ≤ i) :
    (bitReverse x n).getLsbD i = false := by
  simp [bitReverse_getLsbD x i hn, hi]

/-- Settles O16: the in-range part of `rev8_getLsbD`. -/
theorem rev8ReversesTheByte : Obligations.Rev8ReversesTheByte := by
  intro b i hi
  rw [rev8_getLsbD, decide_eq_true hi, Bool.true_and]

/-- Settles O17, one law for the bits below the width and one for the bits from it on. -/
theorem bitReverseBits : Obligations.BitReverseBits := by
  intro x n i _ hn
  exact ⟨bitReverse_getLsbD_of_lt x hn, bitReverse_getLsbD_of_ge x hn⟩

end Sys2Proof.Proofs
end

/-! ## The feed loop and the field it makes available (10_state.md R20 to R24, 40_bitstream_reader.md R103) -/

section
namespace Sys2Proof.Proofs

open Sys2Proof.Machine

/-- The feed loop of `Read`, with the fuel `Read` gives it, ends filled only after exactly the feeds that the width
needs, and only where the source holds them. -/
theorem fill_filled {n : Nat} {rev : Bool} {r q : Reader} (h : r.fill n rev n = .filled q) :
    q = r.feedMany rev (feedsNeeded n r.pending) ∧
      (feedsNeeded n r.pending = 0 ∨ r.pos + feedsNeeded n r.pending ≤ r.src.length) := by
  have hfuel : feedsNeeded n r.pending ≤ n := by simp only [feedsNeeded]; omega
  by_cases henough : r.pos + feedsNeeded n r.pending ≤ r.src.length
  · rw [fill_enough n hfuel henough] at h
    exact ⟨(FillResult.filled.inj h).symm, .inr henough⟩
  by_cases hpos : r.pos ≤ r.src.length
  · obtain ⟨r', hr', -, -⟩ := fill_short (rev := rev) n hfuel hpos (by omega)
    rw [hr'] at h
    contradiction
  by_cases hpending : n ≤ r.pending
  · have hzero : feedsNeeded n r.pending = 0 := by simp only [feedsNeeded]; omega
    rw [fill_of_le hpending] at h
    rw [hzero, feedMany_zero]
    exact ⟨(FillResult.filled.inj h).symm, .inl rfl⟩
  · obtain ⟨m, rfl⟩ : ∃ m, n = m + 1 := ⟨n - 1, by omega⟩
    rw [Reader.fill, if_pos (by omega), pull_none (by omega)] at h
    contradiction

/-- The registers of a filled reader, in numbers. -/
theorem fill_filled_counts {n : Nat} {rev : Bool} {r q : Reader} (h : r.fill n rev n = .filled q) :
    q.src = r.src ∧ q.pos = r.pos + feedsNeeded n r.pending ∧ q.pending = r.pending + 8 * feedsNeeded n r.pending ∧
      (r.pos ≤ r.src.length → q.pos ≤ r.src.length) := by
  obtain ⟨rfl, hroom⟩ := fill_filled h
  refine ⟨rfl, rfl, rfl, fun hpos => ?_⟩
  change r.pos + feedsNeeded n r.pending ≤ r.src.length
  omega

/-- A filled reader holds the bits asked for. -/
theorem le_pending_of_filled {n : Nat} {rev : Bool} {r q : Reader} (h : r.fill n rev n = .filled q) :
    n ≤ q.pending := by
  obtain ⟨-, -, hpending, -⟩ := fill_filled_counts h
  simp only [feedsNeeded] at hpending
  omega

/-- A field taken from a reader with at most 7 pending bits leaves at most 7 (R22). -/
theorem consume_pending_le_seven {n : Nat} {rev : Bool} {r q : Reader} (h : r.fill n rev n = .filled q)
    (hr : r.pending ≤ 7) : (q.consume n).pending ≤ 7 := by
  obtain ⟨-, -, hpending, -⟩ := fill_filled_counts h
  simp only [feedsNeeded] at hpending
  rw [Reader.consume_pending]
  omega

/-- Bits are pending only from bytes that were pulled (R35), also after a field is taken. -/
theorem consume_pending_fed {n : Nat} {rev : Bool} {r q : Reader} (h : r.fill n rev n = .filled q)
    (hr : r.pending ≤ 8 * r.pos) : (q.consume n).pending ≤ 8 * (q.consume n).pos := by
  obtain ⟨-, hpos, hpending, -⟩ := fill_filled_counts h
  rw [Reader.consume_pending, Reader.consume_pos]
  omega

/-- An exhausted reader has kept its source, has not moved back, and has pulled every byte there was (R24, R110). -/
theorem fill_exhausted {n : Nat} {rev : Bool} {r q : Reader} (h : r.fill n rev n = .exhausted q) :
    q.src = r.src ∧ r.pos ≤ q.pos ∧ (r.pos ≤ r.src.length → q.pos = r.src.length) := by
  have hfuel : feedsNeeded n r.pending ≤ n := by simp only [feedsNeeded]; omega
  have hkept : q.src = r.src ∧ r.pos ≤ q.pos := by
    rcases fill_src (rev := rev) (n := n) n r with ⟨r', hr', -⟩ | ⟨r', hr', hsrc, hpos⟩
    · rw [hr'] at h
      contradiction
    · rw [hr'] at h
      cases h
      exact ⟨hsrc, hpos⟩
  refine ⟨hkept.1, hkept.2, fun hpos => ?_⟩
  by_cases henough : r.pos + feedsNeeded n r.pending ≤ r.src.length
  · rw [fill_enough n hfuel henough] at h
    contradiction
  · obtain ⟨r', hr', -, hend⟩ := fill_short (rev := rev) n hfuel hpos (by omega)
    rw [hr'] at h
    cases h
    exact hend

/-- The feed loop stops before it holds more than 7 bits beyond the width, at every fuel (R22). -/
theorem fill_pending_le {n : Nat} (rev : Bool) (fuel : Nat) {r : Reader} (hr : r.pending ≤ n + 7) :
    ∃ q, (r.fill n rev fuel = .filled q ∨ r.fill n rev fuel = .exhausted q) ∧ q.pending ≤ n + 7 := by
  induction fuel generalizing r with
  | zero => exact ⟨r, .inl rfl, hr⟩
  | succ fuel ih =>
    by_cases hfeed : r.pending < n
    · rw [Reader.fill, if_pos hfeed]
      rcases Nat.lt_or_ge r.pos r.src.length with hlt | hge
      · rw [pull_some hlt]
        exact ih (by rw [Reader.feed_pending]; dsimp only; omega)
      · exact ⟨r, .inr (by rw [pull_none hge]), hr⟩
    · exact ⟨r, .inl (fill_of_le (by omega) _), hr⟩

/-- A field of `n` bits is below `2^n`. -/
theorem field_toNat_lt (r : Reader) {n : Nat} (hn : n ≤ 32) : (r.field n).toNat < 2 ^ n :=
  Nat.lt_pow_two_of_testBit _ fun i hi => by
    rw [BitVec.testBit_toNat, field_getLsbD r n i hn, decide_eq_false (by omega), Bool.false_and]

end Sys2Proof.Proofs
end

/-! ## What each command does, case by case -/

section
namespace Sys2Proof.Proofs

open Sys2Proof.Machine

theorem exec_stat (s : State) : exec .stat s = .next s.refuse := rfl

theorem exec_init (s : State) : exec .init s = .next (s.beginSession s.presented) := rfl

/-- Behind the latch, every command but STAT and INIT is refused (R166). -/
theorem exec_latched {i : Instr} {s : State} (hf : s.fault = true) (hstat : i ≠ .stat) (hinit : i ≠ .init) :
    exec i s = .next s.refuse := by
  cases i with
  | stat => contradiction
  | init => contradiction
  | read n rev => exact congrArg _ (unlessLatched_latched hf _)
  | bitrev n => exact congrArg _ (unlessLatched_latched hf _)
  | next => exact congrArg _ (unlessLatched_latched hf _)

section Unlatched
variable {s u : State} (hf : s.fault = false)
include hf

theorem exec_read_raised {n : Nat} {rev : Bool} (hr : s.readField n rev = .raised u) :
    exec (.read n rev) s = .next u := by
  simp only [exec, execRead, unlessLatched_clear hf, hr]

theorem exec_read_value {n : Nat} {rev : Bool} {v : Word32} (hr : s.readField n rev = .value v u) :
    exec (.read n rev) s = .next { u with result := v, emit := false } := by
  simp only [exec, execRead, unlessLatched_clear hf, hr]

theorem exec_bitrev_legal {n : Nat} (hn : legalWidth n = true) :
    exec (.bitrev n) s = .next { s with result := bitReverse s.din n, emit := false } := by
  simp only [exec, execBitrev, unlessLatched_clear hf, if_pos hn, State.dataOperand]

theorem exec_bitrev_illegal {n : Nat} (hn : legalWidth n ≠ true) :
    exec (.bitrev n) s = .next (s.raiseFault .preconditionViolation (widthInfo n)) := by
  simp only [exec, execBitrev, unlessLatched_clear hf, if_neg hn]

theorem exec_next_done (hd : s.ard = .done) : exec .next s = .next s.refuse := by
  simp only [exec, execNext, unlessLatched_clear hf, hd, State.refuse]

theorem exec_next_raised (hd : s.ard = .reading) (hr : s.readField 9 true = .raised u) :
    exec .next s = .next u := by
  simp only [exec, execNext, unlessLatched_clear hf, hd, show literals.idWidth = 9 from rfl, hr]

theorem exec_next_value {raw : Word32} (hd : s.ard = .reading) (hr : s.readField 9 true = .value raw u) :
    exec .next s = .next (nextRecord ((bitReverse raw 9).setWidth 9) u) := by
  simp only [exec, execNext, unlessLatched_clear hf, hd, show literals.idWidth = 9 from rfl, hr]

end Unlatched

theorem nextRecord_terminator (s : State) :
    nextRecord literals.terminatorId s = { s with ard := .done, emit := false } :=
  if_pos rfl

theorem nextRecord_unknown {id : AttrId} (hid : id ≠ literals.terminatorId) (hw : widthOf id = none) (s : State) :
    nextRecord id s = s.raiseFault .unknownAttributeID (id.setWidth 32) := by
  simp only [nextRecord, if_neg hid, hw]

theorem nextRecord_known {id : AttrId} {w : Nat} (hid : id ≠ literals.terminatorId) (hw : widthOf id = some w)
    (s : State) : nextRecord id s = nextValue id w s := by
  simp only [nextRecord, if_neg hid, hw]

theorem nextValue_raised {id : AttrId} {w : Nat} {s u : State} (hr : s.readField w true = .raised u) :
    nextValue id w s = u := by
  simp only [nextValue, hr]

theorem nextValue_value {id : AttrId} {w : Nat} {s u : State} {raw : Word32} (hr : s.readField w true = .value raw u) :
    nextValue id w s = u.emitPair id (scaleValue id (bitReverse raw w)) := by
  simp only [nextValue, hr]

end Sys2Proof.Proofs
end

/-! ## What one step can do (60_exceptions.md R168) -/

section
namespace Sys2Proof.Proofs

open Sys2Proof.Machine

/-- The state in which a step performs the command `c`: its operands stand on the host port, `rest` still waits. -/
def onPort (s : State) (c : HostCommand) (rest : List HostCommand) : State :=
  { s with din := c.din, presented := c.bytes, commands := rest }

/-- The state in which a `Read` of `n` that ran the reader dry, to `q`, ends the command (R110). -/
def ranDry (s : State) (q : Reader) (n : Nat) : State :=
  (State.loseWindow { s with bsr := q }).raiseFault .endOfStream (widthInfo n)

/-- The state after a `Read` of `n` that filled the reader to `q` has taken its field. -/
def tookField (s : State) (q : Reader) (n : Nat) : State := { s with bsr := q.consume n }

/-- The ID that NEXT reads from a filled reader: its first bit is the least significant (R133). -/
def recordId (q : Reader) : AttrId := (bitReverse (q.field 9) 9).setWidth 9

/-- The value that NEXT emits for a record of ID `id` and width `w` (R132, R133). -/
def recordValue (id : AttrId) (w : Nat) (q : Reader) : Word32 := scaleValue id (bitReverse (q.field w) w)

/-- Everything that performing the word `w` can do, from a state with the operands on the port. -/
inductive Performs (s : State) (w : CommandWord) : State → Prop
  | stat (hw : decode w = .ok .stat) : Performs s w s.refuse
  | init (hw : decode w = .ok .init) : Performs s w (s.beginSession s.presented)
  | refused (hf : s.fault = true) (hstat : decode w ≠ .ok .stat) (hinit : decode w ≠ .ok .init) :
      Performs s w s.refuse
  | illegal {e : Illegal} (hf : s.fault = false) (hw : decode w = .error e) :
      Performs s w (s.raiseFault .illegalCommand (w.setWidth 32))
  | readWidth {n : Nat} {rev : Bool} (hf : s.fault = false) (hw : decode w = .ok (.read n rev)) (hn : n < 1 ∨ 32 < n) :
      Performs s w (s.raiseFault .preconditionViolation (widthInfo n))
  | readShort {n : Nat} {rev : Bool} {q : Reader} (hf : s.fault = false) (hw : decode w = .ok (.read n rev))
      (h1 : 1 ≤ n) (h32 : n ≤ 32) (hq : s.bsr.fill n rev n = .exhausted q) : Performs s w (ranDry s q n)
  | readValue {n : Nat} {rev : Bool} {q : Reader} (hf : s.fault = false) (hw : decode w = .ok (.read n rev))
      (h1 : 1 ≤ n) (h32 : n ≤ 32) (hq : s.bsr.fill n rev n = .filled q) :
      Performs s w { tookField s q n with result := q.field n, emit := false }
  | bitrevWidth {n : Nat} (hf : s.fault = false) (hw : decode w = .ok (.bitrev n)) (hn : n < 1 ∨ 32 < n) :
      Performs s w (s.raiseFault .preconditionViolation (widthInfo n))
  | bitrevValue {n : Nat} (hf : s.fault = false) (hw : decode w = .ok (.bitrev n)) (h1 : 1 ≤ n) (h32 : n ≤ 32) :
      Performs s w { s with result := bitReverse s.din n, emit := false }
  | nextDone (hf : s.fault = false) (hw : decode w = .ok .next) (ha : s.ard = .done) : Performs s w s.refuse
  | nextShortId {q : Reader} (hf : s.fault = false) (hw : decode w = .ok .next) (ha : s.ard = .reading)
      (hq : s.bsr.fill 9 true 9 = .exhausted q) : Performs s w (ranDry s q 9)
  | nextTerminator {q : Reader} (hf : s.fault = false) (hw : decode w = .ok .next) (ha : s.ard = .reading)
      (hq : s.bsr.fill 9 true 9 = .filled q) (hid : recordId q = literals.terminatorId) :
      Performs s w { tookField s q 9 with ard := .done, emit := false }
  | nextUnknown {q : Reader} (hf : s.fault = false) (hw : decode w = .ok .next) (ha : s.ard = .reading)
      (hq : s.bsr.fill 9 true 9 = .filled q) (hid : recordId q ≠ literals.terminatorId)
      (hwidth : widthOf (recordId q) = none) :
      Performs s w ((tookField s q 9).raiseFault .unknownAttributeID ((recordId q).setWidth 32))
  | nextShortValue {q p : Reader} {n : Nat} (hf : s.fault = false) (hw : decode w = .ok .next) (ha : s.ard = .reading)
      (hq : s.bsr.fill 9 true 9 = .filled q) (hid : recordId q ≠ literals.terminatorId)
      (hwidth : widthOf (recordId q) = some n) (hp : (q.consume 9).fill n true n = .exhausted p) :
      Performs s w (ranDry (tookField s q 9) p n)
  | nextEmit {q p : Reader} {n : Nat} (hf : s.fault = false) (hw : decode w = .ok .next) (ha : s.ard = .reading)
      (hq : s.bsr.fill 9 true 9 = .filled q) (hid : recordId q ≠ literals.terminatorId)
      (hwidth : widthOf (recordId q) = some n) (hp : (q.consume 9).fill n true n = .filled p) :
      Performs s w ((tookField (tookField s q 9) p n).emitPair (recordId q) (recordValue (recordId q) n p))

theorem readField_filled {s : State} {n : Nat} {rev : Bool} {q : Reader} (h1 : 1 ≤ n) (h32 : n ≤ 32)
    (hq : s.bsr.fill n rev n = .filled q) : s.readField n rev = .value (q.field n) (tookField s q n) := by
  simp only [State.readField, if_pos ((legalWidth_iff n).2 ⟨h1, h32⟩), hq, tookField]

theorem readField_exhausted {s : State} {n : Nat} {rev : Bool} {q : Reader} (h1 : 1 ≤ n) (h32 : n ≤ 32)
    (hq : s.bsr.fill n rev n = .exhausted q) : s.readField n rev = .raised (ranDry s q n) := by
  simp only [State.readField, if_pos ((legalWidth_iff n).2 ⟨h1, h32⟩), hq, ranDry]

/-- `Read` of a legal width takes a field or runs the reader dry. -/
theorem readField_legal (s : State) {n : Nat} (rev : Bool) (h1 : 1 ≤ n) (h32 : n ≤ 32) :
    (∃ q, s.bsr.fill n rev n = .filled q ∧ s.readField n rev = .value (q.field n) (tookField s q n)) ∨
      (∃ q, s.bsr.fill n rev n = .exhausted q ∧ s.readField n rev = .raised (ranDry s q n)) := by
  rcases fill_src (rev := rev) (n := n) n s.bsr with ⟨q, hq, -⟩ | ⟨q, hq, -⟩
  · exact .inl ⟨q, hq, readField_filled h1 h32 hq⟩
  · exact .inr ⟨q, hq, readField_exhausted h1 h32 hq⟩

section Unlatched
variable {s t : State} {w : CommandWord} (hf : s.fault = false)
include hf

theorem execRead_performs {n : Nat} {rev : Bool} (hw : decode w = .ok (.read n rev))
    (h : exec (.read n rev) s = .next t) : Performs s w t := by
  by_cases hn : 1 ≤ n ∧ n ≤ 32
  · obtain ⟨h1, h32⟩ := hn
    rcases readField_legal s rev h1 h32 with ⟨q, hq, hr⟩ | ⟨q, hq, hr⟩
    · rw [exec_read_value hf hr] at h
      cases h
      exact .readValue hf hw h1 h32 hq
    · rw [exec_read_raised hf hr] at h
      cases h
      exact .readShort hf hw h1 h32 hq
  · have hn : n < 1 ∨ 32 < n := by omega
    rw [exec_read_raised hf (readField_illegal hn rev)] at h
    cases h
    exact .readWidth hf hw hn

theorem execBitrev_performs {n : Nat} (hw : decode w = .ok (.bitrev n)) (h : exec (.bitrev n) s = .next t) :
    Performs s w t := by
  by_cases hn : 1 ≤ n ∧ n ≤ 32
  · rw [exec_bitrev_legal hf ((legalWidth_iff n).2 hn)] at h
    cases h
    exact .bitrevValue hf hw hn.1 hn.2
  · rw [exec_bitrev_illegal hf (mt (legalWidth_iff n).1 hn)] at h
    cases h
    exact .bitrevWidth hf hw (by omega)

/-- Steps 3 to 8 of R133. -/
theorem nextRecord_performs {q : Reader} (hw : decode w = .ok .next) (ha : s.ard = .reading)
    (hq : s.bsr.fill 9 true 9 = .filled q) : Performs s w (nextRecord (recordId q) (tookField s q 9)) := by
  by_cases hid : recordId q = literals.terminatorId
  · rw [hid, nextRecord_terminator]
    exact .nextTerminator hf hw ha hq hid
  cases hwidth : widthOf (recordId q) with
  | none =>
    rw [nextRecord_unknown hid hwidth]
    exact .nextUnknown hf hw ha hq hid hwidth
  | some n =>
    obtain ⟨h7, h32⟩ := legalWidth_of_widthOf hwidth
    rw [nextRecord_known hid hwidth]
    rcases readField_legal (tookField s q 9) true (by omega : 1 ≤ n) h32 with ⟨p, hp, hr⟩ | ⟨p, hp, hr⟩
    · rw [nextValue_value hr]
      exact .nextEmit hf hw ha hq hid hwidth hp
    · rw [nextValue_raised hr]
      exact .nextShortValue hf hw ha hq hid hwidth hp

theorem execNext_performs (hw : decode w = .ok .next) (h : exec .next s = .next t) : Performs s w t := by
  cases ha : s.ard with
  | done =>
    rw [exec_next_done hf ha] at h
    cases h
    exact .nextDone hf hw ha
  | reading =>
    rcases readField_legal s true (by decide : 1 ≤ 9) (by decide) with ⟨q, hq, hr⟩ | ⟨q, hq, hr⟩
    · rw [exec_next_value hf ha hr] at h
      cases h
      exact nextRecord_performs hf hw ha hq
    · rw [exec_next_raised hf ha hr] at h
      cases h
      exact .nextShortId hf hw ha hq

end Unlatched

theorem exec_performs {s t : State} {w : CommandWord} {i : Instr} (hw : decode w = .ok i) (h : exec i s = .next t) :
    Performs s w t := by
  by_cases hstat : i = .stat
  · subst hstat
    cases h
    exact .stat hw
  by_cases hinit : i = .init
  · subst hinit
    cases h
    exact .init hw
  cases hf : s.fault with
  | true =>
    rw [exec_latched hf hstat hinit] at h
    cases h
    exact .refused hf (by simpa [hw] using hstat) (by simpa [hw] using hinit)
  | false =>
    cases i with
    | stat => contradiction
    | init => contradiction
    | read n rev => exact execRead_performs hf hw h
    | bitrev n => exact execBitrev_performs hf hw h
    | next => exact execNext_performs hf hw h

theorem illegalWord_performs {s : State} {w : CommandWord} {e : Illegal} (hw : decode w = .error e) :
    Performs s w (s.illegalWord w) := by
  cases hf : s.fault with
  | true =>
    rw [illegalWord_latched hf]
    exact .refused hf (by simp [hw]) (by simp [hw])
  | false =>
    rw [illegalWord_clear hf]
    exact .illegal hf hw

theorem step_nil {s : State} (hc : s.commands = []) : step s = .next s := by
  simp only [step, takeCommand_nil hc]

theorem step_legal {s : State} {c : HostCommand} {rest : List HostCommand} {i : Instr} (hc : s.commands = c :: rest)
    (hw : decode c.word = .ok i) : step s = exec i (onPort s c rest) := by
  simp only [step, takeCommand_cons hc, hw, onPort]

theorem step_illegal {s : State} {c : HostCommand} {rest : List HostCommand} {e : Illegal} (hc : s.commands = c :: rest)
    (hw : decode c.word = .error e) : step s = .next ((onPort s c rest).illegalWord c.word) := by
  simp only [step, takeCommand_cons hc, hw, onPort]

/-- A step with a command waiting performs that command's word. -/
theorem step_performs {s t : State} {c : HostCommand} {rest : List HostCommand} (hc : s.commands = c :: rest)
    (h : step s = .next t) : Performs (onPort s c rest) c.word t := by
  cases hw : decode c.word with
  | ok i =>
    rw [step_legal hc hw] at h
    exact exec_performs hw h
  | error e =>
    rw [step_illegal hc hw] at h
    cases h
    exact illegalWord_performs hw

/-- All that a step can do: wait, or perform the oldest command. -/
theorem step_cases {s t : State} (h : step s = .next t) :
    (s.commands = [] ∧ t = s) ∨
      ∃ c rest, s.commands = c :: rest ∧ Performs (onPort s c rest) c.word t := by
  cases hc : s.commands with
  | nil =>
    rw [step_nil hc] at h
    cases h
    exact .inl ⟨rfl, rfl⟩
  | cons c rest => exact .inr ⟨c, rest, rfl, step_performs hc h⟩

end Sys2Proof.Proofs
end

/-! ## The STATUS view (10_state.md R32) -/

section
namespace Sys2Proof.Proofs

open Sys2Proof.Machine

/-- A bit of six fields put side by side in the order of the STATUS view. -/
theorem viewFields_getLsbD (cause : BitVec 3) (emit fault done : Bool) (i : Nat) :
    ((0 : BitVec 1) ++ cause ++ (0 : BitVec 1) ++ BitVec.ofBool emit ++ BitVec.ofBool fault ++
      BitVec.ofBool done).getLsbD i =
    if i < 1 then (BitVec.ofBool done).getLsbD i
    else if i - 1 < 1 then (BitVec.ofBool fault).getLsbD (i - 1)
    else if i - 1 - 1 < 1 then (BitVec.ofBool emit).getLsbD (i - 1 - 1)
    else if i - 1 - 1 - 1 < 1 then (0 : BitVec 1).getLsbD (i - 1 - 1 - 1)
    else if i - 1 - 1 - 1 - 1 < 3 then cause.getLsbD (i - 1 - 1 - 1 - 1)
    else (0 : BitVec 1).getLsbD (i - 1 - 1 - 1 - 1 - 3) := by
  simp only [BitVec.getLsbD_append]

theorem status_done (s : State) : s.status.getLsbD 0 = s.ard.doneBit :=
  (viewFields_getLsbD _ _ _ _ 0).trans (by simp)

theorem status_fault (s : State) : s.status.getLsbD 1 = s.fault :=
  (viewFields_getLsbD _ _ _ _ 1).trans (by simp)

theorem status_emit (s : State) : s.status.getLsbD 2 = s.emit :=
  (viewFields_getLsbD _ _ _ _ 2).trans (by simp)

theorem status_bit_three (s : State) : s.status.getLsbD 3 = false :=
  (viewFields_getLsbD _ _ _ _ 3).trans (by simp)

theorem status_bit_seven (s : State) : s.status.getLsbD 7 = false :=
  (viewFields_getLsbD _ _ _ _ 7).trans (by simp)

theorem status_cause (s : State) : s.status.extractLsb' 4 3 = s.cause.code := by
  refine BitVec.eq_of_getLsbD_eq fun i hi => ?_
  have hbit : s.status.getLsbD (4 + i) = s.cause.code.getLsbD i := by
    refine (viewFields_getLsbD _ _ _ _ (4 + i)).trans ?_
    simp [hi]
  rw [BitVec.getLsbD_extractLsb', hbit, decide_eq_true hi, Bool.true_and]

theorem doneBit_eq_decide (a : ArdState) : a.doneBit = decide (a = .done) := by
  cases a <;> rfl

/-- Settles O32, one law for each field of the view. -/
theorem statusFields : Obligations.StatusFields := by
  refine ⟨fun s => ⟨(status_done s).trans (doneBit_eq_decide _), status_fault s, status_emit s, status_bit_three s,
    status_bit_seven s, ?_⟩, by decide⟩
  rw [status_cause]
  cases s.cause <;> rfl

end Sys2Proof.Proofs
end

/-! ## Which registers a step writes, by the word it performs (10_state.md R23 to R33) -/

section
namespace Sys2Proof.Proofs

open Sys2Proof.Machine

/-- The output side of a step: INIT clears it, an emitting NEXT appends the pair it shows, and every other command
clears `EMIT` and leaves the rest (R30, R31, R33). -/
theorem performs_outputs {s t : State} {w : CommandWord} (h : Performs s w t) :
    (decode w = .ok .init ∧ t.emit = false ∧ t.outId = 0 ∧ t.outValue = 0 ∧ t.outSeq = []) ∨
      (decode w = .ok .next ∧ s.fault = false ∧ t.emit = true ∧ t.outSeq = s.outSeq ++ [⟨t.outId, t.outValue⟩]) ∨
      (decode w ≠ .ok .init ∧ t.emit = false ∧ t.outId = s.outId ∧ t.outValue = s.outValue ∧ t.outSeq = s.outSeq) := by
  cases h with
  | init hw => exact .inl ⟨hw, rfl, rfl, rfl, rfl⟩
  | nextEmit hf hw => exact .inr (.inl ⟨hw, hf, rfl, rfl⟩)
  | refused _ _ hinit => exact .inr (.inr ⟨hinit, rfl, rfl, rfl, rfl⟩)
  | stat hw | illegal _ hw | readWidth _ hw | readShort _ hw | readValue _ hw | bitrevWidth _ hw | bitrevValue _ hw
  | nextDone _ hw | nextShortId _ hw | nextTerminator _ hw | nextUnknown _ hw | nextShortValue _ hw =>
    exact .inr (.inr ⟨by simp [hw], rfl, rfl, rfl, rfl⟩)

/-- Settles O41: a NEXT that does not emit leaves `OUT_SEQ`, so it cannot have appended a pair to it. -/
theorem emitMarksEmittingNext : Obligations.EmitMarksEmittingNext := by
  refine ⟨rfl, fun s t c rest hc h => ?_⟩
  rcases performs_outputs (step_performs hc h) with
    ⟨hw, hemit, -⟩ | ⟨hw, hf, hemit, hseq⟩ | ⟨-, hemit, -, -, hseq⟩
  · simp [hw, hemit]
  · exact iff_of_true hemit ⟨hw, hf, hseq⟩
  · simp [hemit, hseq, onPort]

/-- Settles O42, by the three cases of `performs_outputs`. -/
theorem outputsWrittenOnlyByEmit : Obligations.OutputsWrittenOnlyByEmit := by
  refine ⟨⟨rfl, rfl, rfl⟩, fun s t c rest hc h => ?_⟩
  rcases performs_outputs (step_performs hc h) with
    ⟨hw, hemit, hcleared⟩ | ⟨hw, -, hemit, hseq⟩ | ⟨hw, hemit, hkept⟩
  · exact ⟨fun _ => hcleared, by simp [hemit], fun hnot => absurd hw hnot⟩
  · exact ⟨by simp [hw], fun _ => hseq, by simp [hemit]⟩
  · exact ⟨fun hinit => absurd hinit hw, by simp [hemit], fun _ _ => hkept⟩

/-- `RESULT` after a step: cleared by INIT, written by a READ or a BITREV that completes, and otherwise kept (R29). -/
theorem performs_result {s t : State} {w : CommandWord} (h : Performs s w t) :
    (decode w = .ok .init ∧ t.result = 0) ∨
      (∃ n rev q, decode w = .ok (.read n rev) ∧ n ≤ 32 ∧ t.fault = false ∧ t.result = Reader.field q n) ∨
      (∃ n, decode w = .ok (.bitrev n) ∧ t.fault = false ∧ t.result = bitReverse s.din n) ∨
      (decode w ≠ .ok .init ∧ t.result = s.result ∧
        (t.fault = false → ∀ n, decode w ≠ .ok (.bitrev n) ∧ ∀ rev, decode w ≠ .ok (.read n rev))) := by
  cases h with
  | init hw => exact .inl ⟨hw, rfl⟩
  | readValue hf hw _ h32 => exact .inr (.inl ⟨_, _, _, hw, h32, hf, rfl⟩)
  | bitrevValue hf hw => exact .inr (.inr (.inl ⟨_, hw, hf, rfl⟩))
  | refused hf _ hinit => exact .inr (.inr (.inr ⟨hinit, rfl, by simp [hf]⟩))
  | readWidth _ hw | readShort _ hw | bitrevWidth _ hw =>
    exact .inr (.inr (.inr ⟨by simp [hw], rfl, by simp [ranDry]⟩))
  | stat hw | illegal _ hw | nextDone _ hw | nextShortId _ hw | nextTerminator _ hw | nextUnknown _ hw
  | nextShortValue _ hw | nextEmit _ hw =>
    exact .inr (.inr (.inr ⟨by simp [hw], rfl, by simp [hw]⟩))

/-- Settles O43, by the four cases of `performs_result`. -/
theorem resultWriters : Obligations.ResultWriters := by
  intro s t c rest hc h
  rcases performs_result (step_performs hc h) with
    ⟨hw, hzero⟩ | ⟨n, rev, q, hw, h32, hf, hfield⟩ | ⟨n, hw, hf, hrev⟩ | ⟨hinit, hkept, hfaulted⟩
  · simpa only [hw] using hzero
  · simpa [hw, hf, hfield] using field_toNat_lt q h32
  · simpa [hw, hf, onPort] using hrev
  · split
    · exact absurd ‹_› hinit
    · next n rev hw => exact ⟨fun _ => hkept, fun hf => absurd hw ((hfaulted hf n).2 rev)⟩
    · next n hw => exact ⟨fun _ => hkept, fun hf => absurd hw (hfaulted hf n).1⟩
    · exact hkept

/-- The reader has kept its source, and its cursor has moved forward at most, and not past the end (R23, R24). -/
structure Advances (r r' : Reader) : Prop where
  src : r'.src = r.src
  pos_le_pos : r.pos ≤ r'.pos
  pos_le_length : r.pos ≤ r.src.length → r'.pos ≤ r'.src.length

theorem Advances.trans {r r' r'' : Reader} (h : Advances r r') (h' : Advances r' r'') : Advances r r'' :=
  ⟨h'.src.trans h.src, h.pos_le_pos.trans h'.pos_le_pos, fun hr => h'.pos_le_length (h.pos_le_length hr)⟩

theorem advances_tookField {s : State} {n : Nat} {rev : Bool} {q : Reader} (h : s.bsr.fill n rev n = .filled q) :
    Advances s.bsr (tookField s q n).bsr := by
  obtain ⟨hsrc, hpos, -, hbound⟩ := fill_filled_counts h
  exact ⟨hsrc, hpos ▸ Nat.le_add_right _ _, fun hr => (hbound hr).trans_eq (congrArg _ hsrc.symm)⟩

theorem advances_ranDry {s : State} {n : Nat} {rev : Bool} {q : Reader} (h : s.bsr.fill n rev n = .exhausted q) :
    Advances s.bsr (ranDry s q n).bsr := by
  obtain ⟨hsrc, hpos, hend⟩ := fill_exhausted h
  exact ⟨hsrc, hpos, fun hr => ((hend hr).trans (congrArg _ hsrc.symm)).le⟩

/-- The reader after a step: bound afresh by INIT, advanced by READ and NEXT, and otherwise kept (R23, R24, R51). -/
theorem performs_reader {s t : State} {w : CommandWord} (h : Performs s w t) :
    (decode w = .ok .init ∧ t.bsr = Reader.fresh s.presented) ∨ (decode w ≠ .ok .init ∧ t.bsr = s.bsr) ∨
      ((decode w = .ok .next ∨ ∃ n rev, decode w = .ok (.read n rev)) ∧ Advances s.bsr t.bsr) := by
  cases h with
  | init hw => exact .inl ⟨hw, rfl⟩
  | refused _ _ hinit => exact .inr (.inl ⟨hinit, rfl⟩)
  | stat hw | illegal _ hw | readWidth _ hw | bitrevWidth _ hw | bitrevValue _ hw | nextDone _ hw =>
    exact .inr (.inl ⟨by simp [hw], rfl⟩)
  | readShort _ hw _ _ hq => exact .inr (.inr ⟨.inr ⟨_, _, hw⟩, advances_ranDry hq⟩)
  | readValue _ hw _ _ hq => exact .inr (.inr ⟨.inr ⟨_, _, hw⟩, advances_tookField hq⟩)
  | nextShortId _ hw _ hq => exact .inr (.inr ⟨.inl hw, advances_ranDry hq⟩)
  | nextTerminator _ hw _ hq | nextUnknown _ hw _ hq => exact .inr (.inr ⟨.inl hw, advances_tookField hq⟩)
  | nextShortValue _ hw _ hq _ _ hp =>
    exact .inr (.inr ⟨.inl hw, (advances_tookField hq).trans (advances_ranDry (s := tookField s _ 9) hp)⟩)
  | nextEmit _ hw _ hq _ _ hp =>
    exact .inr (.inr ⟨.inl hw, (advances_tookField hq).trans (advances_tookField (s := tookField s _ 9) hp)⟩)

/-- Settles O45, by the three cases of `performs_reader`. -/
theorem sourceAndCursor : Obligations.SourceAndCursor := by
  intro s t c rest hc h
  rcases performs_reader (step_performs hc h) with ⟨hw, hfresh⟩ | ⟨hinit, hkept⟩ | ⟨hw, hadv⟩
  · refine ⟨fun _ => by simp [hfresh, onPort], fun hnot => absurd hw hnot, fun hnot => absurd hw hnot⟩
  · refine ⟨fun hw => absurd hw hinit, fun _ => ?_, fun _ _ _ => hkept⟩
    rw [hkept]
    exact ⟨rfl, le_rfl, id⟩
  · refine ⟨fun hinit => by simp [hinit] at hw, fun _ => ⟨hadv.src, hadv.pos_le_pos, hadv.pos_le_length⟩,
      fun _ hnext hread => ?_⟩
    rcases hw with hw | ⟨n, rev, hw⟩
    · exact absurd hw hnext
    · exact absurd hw (hread n rev)

end Sys2Proof.Proofs
end

/-! ## The bound on the pending bits (10_state.md R22) -/

section
namespace Sys2Proof.Proofs

open Sys2Proof.Machine

/-- A command that ends unlatched leaves at most 7 pending bits (R22). -/
theorem performs_pending_le_seven {s t : State} {w : CommandWord} (h : Performs s w t)
    (hs : s.fault = false → s.bsr.pending ≤ 7) (ht : t.fault = false) : t.bsr.pending ≤ 7 := by
  cases h with
  | init => exact Nat.zero_le 7
  | stat | refused => exact hs ht
  | nextDone hf | bitrevValue hf => exact hs hf
  | readValue hf _ _ _ hq | nextTerminator hf _ _ hq => exact consume_pending_le_seven hq (hs hf)
  | nextEmit hf _ _ hq _ _ hp => exact consume_pending_le_seven hp (consume_pending_le_seven hq (hs hf))
  | illegal | readWidth | readShort | bitrevWidth | nextShortId | nextUnknown | nextShortValue => cases ht

/-- Settles O37: the step by `performs_pending_le_seven`, the feed loop by `fill_pending_le`. -/
theorem pendingBound : Obligations.PendingBound := by
  refine ⟨Nat.zero_le 7, fun s t hs h ht => ?_, fun r n rev fuel hr _ hn => ?_⟩
  · rcases step_cases h with ⟨-, rfl⟩ | ⟨c, rest, -, hperf⟩
    · exact hs ht
    · exact performs_pending_le_seven hperf hs ht
  · obtain ⟨q, hq, hpending⟩ := fill_pending_le rev fuel (show r.pending ≤ n + 7 by omega)
    exact ⟨q, hq, hpending, by omega⟩

end Sys2Proof.Proofs
end

/-! ## Every step keeps the invariant

One rule for each way in which a command changes the state; the cases of `Performs` compose them. -/

section
namespace Sys2Proof.Proofs

open Sys2Proof.Machine

/-- What the invariant asks of the reader of an unlatched state (R22, R24, R35). -/
structure ReaderInv (r : Reader) : Prop where
  pending_le_seven : r.pending ≤ 7
  pending_fed : r.pending ≤ 8 * r.pos
  pos_le : r.pos ≤ r.src.length

theorem readerInv_of_inv {s : State} (h : Inv s) (hf : s.fault = false) : ReaderInv s.bsr :=
  ⟨h.pending_le_seven hf, h.pending_fed hf, h.pos_le⟩

/-- A reader from which a field was taken. -/
theorem readerInv_consume {n : Nat} {rev : Bool} {r q : Reader} (h : ReaderInv r) (hq : r.fill n rev n = .filled q) :
    ReaderInv (q.consume n) := by
  obtain ⟨hsrc, -, -, hbound⟩ := fill_filled_counts hq
  exact ⟨consume_pending_le_seven hq h.pending_le_seven, consume_pending_fed hq h.pending_fed,
    (hbound h.pos_le).trans_eq (congrArg _ hsrc.symm)⟩

theorem inv_onPort {s : State} (h : Inv s) (c : HostCommand) (rest : List HostCommand) : Inv (onPort s c rest) :=
  
  { h with }

theorem inv_refuse {s : State} (h : Inv s) : Inv s.refuse where
  __ := h
  emit_clear _ := rfl
  emit_pair := nofun

theorem inv_beginSession (s : State) (bytes : List Byte) : Inv (s.beginSession bytes) where
  pending_le_window := Nat.zero_le _
  pending_le_seven _ := Nat.zero_le _
  pending_fed _ := Nat.zero_le _
  pos_le := Nat.zero_le _
  cause_clear := iff_of_true rfl rfl
  info_clear _ := rfl
  exhausted := nofun
  emit_clear := nofun
  outputs_last := rfl
  emit_pair := nofun
  pairs_legal := nofun

/-- Any value may stand in `RESULT`. -/
theorem inv_result {s : State} (h : Inv s) (v : Word32) : Inv { s with result := v, emit := false } :=
  { inv_refuse h with }

theorem inv_ard {s : State} (h : Inv s) (a : ArdState) : Inv { s with ard := a, emit := false } :=
  { inv_refuse h with }

/-- Another reader that meets the reader's part, in an unlatched state. -/
theorem inv_reader {s : State} (h : Inv s) (hf : s.fault = false) {r : Reader} (hr : ReaderInv r) :
    Inv { s with bsr := r } where
  __ := h
  pending_le_window := hr.pending_le_seven.trans (by decide)
  pending_le_seven _ := hr.pending_le_seven
  pending_fed _ := hr.pending_fed
  pos_le := hr.pos_le
  exhausted hc := by
    rw [h.cause_clear.1 hf] at hc
    contradiction

/-- Fault entry keeps the invariant where the cause is one that the reader's place bears out. -/
theorem inv_raiseFault {s : State} (h : Inv s) {c : Cause} (info : Word32) (hc : c ≠ .noFault)
    (hend : c = .endOfStream → s.bsr.pos = s.bsr.src.length) : Inv (s.raiseFault c info) where
  pending_le_window := h.pending_le_window
  pending_le_seven := nofun
  pending_fed := nofun
  pos_le := h.pos_le
  cause_clear := iff_of_false nofun hc
  info_clear := nofun
  exhausted := hend
  emit_clear _ := rfl
  outputs_last := h.outputs_last
  emit_pair := nofun
  pairs_legal := h.pairs_legal

theorem inv_tookField {s : State} (h : Inv s) (hf : s.fault = false) {n : Nat} {rev : Bool} {q : Reader}
    (hq : s.bsr.fill n rev n = .filled q) : Inv (tookField s q n) :=
  inv_reader h hf (readerInv_consume (readerInv_of_inv h hf) hq)

/-- `EndOfStream` keeps the invariant, whatever the free values are: the free `PENDING` is at most 64 (R110). -/
theorem inv_ranDry {s : State} (h : Inv s) {n : Nat} {rev : Bool} {q : Reader}
    (hq : s.bsr.fill n rev n = .exhausted q) : Inv (ranDry s q n) := by
  obtain ⟨hsrc, -, hend⟩ := fill_exhausted hq
  have hspent : q.pos = q.src.length := (hend h.pos_le).trans (congrArg _ hsrc.symm)
  exact
    { pending_le_window := Nat.le_of_lt_succ (Config.freePending s.freeCount).isLt
      pending_le_seven := nofun
      pending_fed := nofun
      pos_le := hspent.le
      cause_clear := iff_of_false nofun nofun
      info_clear := nofun
      exhausted := fun _ => hspent
      emit_clear := fun _ => rfl
      outputs_last := h.outputs_last
      emit_pair := nofun
      pairs_legal := h.pairs_legal }

/-- Emitting a pair that the table allows keeps the invariant of an unlatched state. -/
theorem inv_emitPair {s : State} (h : Inv s) (hf : s.fault = false) {id : AttrId} {value : Word32}
    (hp : Pair.legal ⟨id, value⟩) : Inv (s.emitPair id value) where
  __ := h
  emit_clear hlatched := absurd (hf.symm.trans hlatched) nofun
  outputs_last := by simp
  emit_pair _ := by simp
  pairs_legal p hmem := by
    rcases List.mem_append.1 hmem with hold | hnew
    · exact h.pairs_legal p hold
    · rwa [List.mem_singleton.1 hnew]

/-- The value of a record fits the width the table gives its ID, eight bits fewer for a resource (R131, R132). -/
theorem recordValue_legal {id : AttrId} {w : Nat} (hw : widthOf id = some w) (q : Reader) :
    Pair.legal ⟨id, recordValue id w q⟩ := by
  refine ⟨w, hw, ?_⟩
  have hraw : (bitReverse (q.field w) w).toNat < 2 ^ w := bitReverse_toNat_lt _ w (legalWidth_of_widthOf hw).2
  by_cases hres : id ∈ literals.resourceIds
  · have hscaled : (recordValue id w q).toNat = (bitReverse (q.field w) w).toNat / 256 := by
      rw [recordValue, scaleValue, if_pos (List.contains_iff_mem.2 hres), BitVec.toNat_ofNat,
        Nat.mod_eq_of_lt ((Nat.div_le_self _ _).trans_lt (BitVec.isLt _))]
      rfl
    have hwide : 2 ^ w ≤ 256 * 2 ^ (w - 8) := by
      rw [show 256 = 2 ^ 8 from rfl, ← Nat.pow_add]
      exact Nat.pow_le_pow_right (by decide) (by omega)
    rw [if_pos hres, hscaled]
    exact Nat.div_lt_of_lt_mul (hraw.trans_le hwide)
  · rw [if_neg hres]
    rwa [recordValue, scaleValue, if_neg (mt List.contains_iff_mem.1 hres)]

theorem performs_inv {s t : State} {w : CommandWord} (h : Inv s) (hperf : Performs s w t) : Inv t := by
  cases hperf with
  | stat | refused | nextDone => exact inv_refuse h
  | init => exact inv_beginSession s _
  | illegal | readWidth | bitrevWidth => exact inv_raiseFault h _ nofun nofun
  | bitrevValue => exact inv_result h _
  | readValue hf _ _ _ hq => exact inv_result (inv_tookField h hf hq) _
  | readShort _ _ _ _ hq | nextShortId _ _ _ hq => exact inv_ranDry h hq
  | nextTerminator hf _ _ hq => exact inv_ard (inv_tookField h hf hq) .done
  | nextUnknown hf _ _ hq => exact inv_raiseFault (inv_tookField h hf hq) _ nofun nofun
  | nextShortValue hf _ _ hq _ _ hp => exact inv_ranDry (s := tookField s _ 9) (inv_tookField h hf hq) hp
  | nextEmit hf _ _ hq _ hwidth hp =>
    have htaken := inv_tookField (s := tookField s _ 9) (inv_tookField h hf hq) hf hp
    exact inv_emitPair htaken hf (recordValue_legal hwidth _)

/-- Settles O36: a wait changes nothing, and a command keeps the invariant by `performs_inv`. -/
theorem stepKeepsInv : Obligations.StepKeepsInv := by
  intro s t hs h
  rcases step_cases h with ⟨-, rfl⟩ | ⟨c, rest, -, hperf⟩
  · exact hs
  · exact performs_inv (inv_onPort hs c rest) hperf

end Sys2Proof.Proofs
end

/-! ## The stale bits of the window reach no output (10_state.md R35)

Each operation of the machine takes states that agree but for stale bits to states that agree so. -/

section
namespace Sys2Proof.Proofs

open Sys2Proof.Machine

/-- Feeding a byte moves every live bit up and makes the new low bits live in both readers. -/
theorem sameLiveBits_feed {r r' : Reader} (h : r.sameLiveBits r') (rev : Bool) (raw : Byte) :
    (Reader.feed { r with pos := r.pos + 1 } rev raw).sameLiveBits
      (Reader.feed { r' with pos := r'.pos + 1 } rev raw) := by
  obtain ⟨hpending, hsrc, hpos, hbits⟩ := h
  refine ⟨by simp [hpending], hsrc, by simp [hpos], fun k hk => ?_⟩
  simp only [Reader.feed_pending] at hk
  simp only [Reader.feed_window, pushByte_getLsbD]
  by_cases hlow : k < 8
  · simp [hlow]
  · simp [hlow, hbits (k - 8) (by omega)]

/-- The feed loop ends the same way from both readers. -/
theorem sameLiveBits_fill {r r' : Reader} (h : r.sameLiveBits r') (n : Nat) (rev : Bool) (fuel : Nat) :
    (∃ q q', r.fill n rev fuel = .filled q ∧ r'.fill n rev fuel = .filled q' ∧ q.sameLiveBits q') ∨
      (∃ q q', r.fill n rev fuel = .exhausted q ∧ r'.fill n rev fuel = .exhausted q' ∧ q.sameLiveBits q') := by
  induction fuel generalizing r r' with
  | zero => exact .inl ⟨r, r', rfl, rfl, h⟩
  | succ fuel ih =>
    have ⟨hpending, hsrc, hpos, _⟩ := h
    by_cases hfeed : r.pending < n
    · have hfeed' : r'.pending < n := hpending ▸ hfeed
      rw [Reader.fill, Reader.fill, if_pos hfeed, if_pos hfeed']
      rcases Nat.lt_or_ge r.pos r.src.length with hlt | hge
      · have hbyte : r'.src[r'.pos]'(by rwa [hsrc, hpos]) = r.src[r.pos] := by simp only [hsrc, hpos]
        rw [pull_some hlt, pull_some (by rwa [hsrc, hpos]), hbyte]
        exact ih (sameLiveBits_feed h rev _)
      · rw [pull_none hge, pull_none (by rwa [hsrc, hpos])]
        exact .inr ⟨r, r', rfl, rfl, h⟩
    · rw [fill_of_le (by omega), fill_of_le (by omega)]
      exact .inl ⟨r, r', rfl, rfl, h⟩

/-- A field lies in the live bits. -/
theorem sameLiveBits_field {r r' : Reader} (h : r.sameLiveBits r') {n : Nat} (hn : n ≤ 32) (hlive : n ≤ r.pending) :
    r'.field n = r.field n := by
  obtain ⟨hpending, -, -, hbits⟩ := h
  refine BitVec.eq_of_getLsbD_eq fun i _ => ?_
  rw [field_getLsbD r' n i hn, field_getLsbD r n i hn, hpending]
  by_cases hi : i < n
  · rw [hbits _ (by omega)]
  · simp [hi]

theorem sameLiveBits_consume {r r' : Reader} (h : r.sameLiveBits r') (n : Nat) :
    (r.consume n).sameLiveBits (r'.consume n) := by
  obtain ⟨hpending, hsrc, hpos, hbits⟩ := h
  exact ⟨congrArg (· - n) hpending, hsrc, hpos, fun k hk => hbits k (Nat.lt_of_lt_of_le hk (Nat.sub_le _ _))⟩

/-- Two states that agree but for stale bits are one state with two such readers. -/
theorem sameLiveBits_iff {s s' : State} :
    s.sameLiveBits s' ↔ ∃ r', s.bsr.sameLiveBits r' ∧ s' = { s with bsr := r' } :=
  ⟨fun h => ⟨s'.bsr, h.1, h.2⟩, fun ⟨_, hr, hs'⟩ => hs' ▸ ⟨hr, rfl⟩⟩

theorem sameLiveBits_withReader (s : State) {q q' : Reader} (h : q.sameLiveBits q') :
    State.sameLiveBits { s with bsr := q } { s with bsr := q' } :=
  ⟨h, rfl⟩

/-- After `EndOfStream` both windows are the same free value. -/
theorem sameLiveBits_ranDry (s : State) {q q' r' : Reader} (h : q.sameLiveBits q') (n : Nat) :
    (ranDry s q n).sameLiveBits (ranDry { s with bsr := r' } q' n) := by
  obtain ⟨-, hsrc, hpos, -⟩ := h
  exact ⟨⟨rfl, hsrc, hpos, fun _ _ => rfl⟩, rfl⟩

section Updates
variable {s s' : State} (h : s.sameLiveBits s')
include h

theorem sameLiveBits_refuse : s.refuse.sameLiveBits s'.refuse := by
  obtain ⟨r', hr, rfl⟩ := sameLiveBits_iff.1 h
  exact ⟨hr, rfl⟩

theorem sameLiveBits_raiseFault (c : Cause) (info : Word32) :
    (s.raiseFault c info).sameLiveBits (s'.raiseFault c info) := by
  obtain ⟨r', hr, rfl⟩ := sameLiveBits_iff.1 h
  exact ⟨hr, rfl⟩

theorem sameLiveBits_emitPair (id : AttrId) (value : Word32) :
    (s.emitPair id value).sameLiveBits (s'.emitPair id value) := by
  obtain ⟨r', hr, rfl⟩ := sameLiveBits_iff.1 h
  exact ⟨hr, rfl⟩

theorem sameLiveBits_result (v : Word32) :
    State.sameLiveBits { s with result := v, emit := false } { s' with result := v, emit := false } := by
  obtain ⟨r', hr, rfl⟩ := sameLiveBits_iff.1 h
  exact ⟨hr, rfl⟩

theorem sameLiveBits_ard (a : ArdState) :
    State.sameLiveBits { s with ard := a, emit := false } { s' with ard := a, emit := false } := by
  obtain ⟨r', hr, rfl⟩ := sameLiveBits_iff.1 h
  exact ⟨hr, rfl⟩

/-- INIT binds both readers afresh. -/
theorem sameLiveBits_beginSession (bytes : List Byte) :
    (s.beginSession bytes).sameLiveBits (s'.beginSession bytes) := by
  obtain ⟨r', -, rfl⟩ := sameLiveBits_iff.1 h
  exact ⟨⟨rfl, rfl, rfl, fun _ _ => rfl⟩, rfl⟩

theorem sameLiveBits_onPort (c : HostCommand) (rest : List HostCommand) :
    (onPort s c rest).sameLiveBits (onPort s' c rest) := by
  obtain ⟨r', hr, rfl⟩ := sameLiveBits_iff.1 h
  exact ⟨hr, rfl⟩

theorem hostView_eq_of_sameLiveBits : s'.hostView = s.hostView := by
  obtain ⟨r', -, rfl⟩ := sameLiveBits_iff.1 h
  rfl

theorem fault_eq_of_sameLiveBits : s'.fault = s.fault := by
  obtain ⟨r', -, rfl⟩ := sameLiveBits_iff.1 h
  rfl

theorem ard_eq_of_sameLiveBits : s'.ard = s.ard := by
  obtain ⟨r', -, rfl⟩ := sameLiveBits_iff.1 h
  rfl

theorem presented_eq_of_sameLiveBits : s'.presented = s.presented := by
  obtain ⟨r', -, rfl⟩ := sameLiveBits_iff.1 h
  rfl

theorem commands_eq_of_sameLiveBits : s'.commands = s.commands := by
  obtain ⟨r', -, rfl⟩ := sameLiveBits_iff.1 h
  rfl

end Updates

/-- A `Read` takes the same field from both states, or raises the same fault in both (R35, R105). -/
theorem sameLiveBits_readField {s s' : State} (h : s.sameLiveBits s') (n : Nat) (rev : Bool) :
    (∃ v u u', s.readField n rev = .value v u ∧ s'.readField n rev = .value v u' ∧ u.sameLiveBits u') ∨
      (∃ u u', s.readField n rev = .raised u ∧ s'.readField n rev = .raised u' ∧ u.sameLiveBits u') := by
  by_cases hn : 1 ≤ n ∧ n ≤ 32
  · obtain ⟨h1, h32⟩ := hn
    obtain ⟨r', hr, rfl⟩ := sameLiveBits_iff.1 h
    rcases sameLiveBits_fill hr n rev n with ⟨q, q', hq, hq', hqq⟩ | ⟨q, q', hq, hq', hqq⟩
    · have hfield := sameLiveBits_field hqq h32 (le_pending_of_filled hq)
      refine .inl ⟨_, _, _, readField_filled h1 h32 hq, ?_, sameLiveBits_withReader s (sameLiveBits_consume hqq n)⟩
      rw [readField_filled h1 h32 hq', hfield]
      rfl
    · exact .inr ⟨_, _, readField_exhausted h1 h32 hq, readField_exhausted h1 h32 hq', sameLiveBits_ranDry s hqq n⟩
  · have hn : n < 1 ∨ 32 < n := by omega
    exact .inr ⟨_, _, readField_illegal hn rev, readField_illegal hn rev, sameLiveBits_raiseFault h _ _⟩

theorem sameLiveBits_nextValue {s s' : State} (h : s.sameLiveBits s') (id : AttrId) (w : Nat) :
    (nextValue id w s).sameLiveBits (nextValue id w s') := by
  rcases sameLiveBits_readField h w true with ⟨v, u, u', hu, hu', huu⟩ | ⟨u, u', hu, hu', huu⟩
  · rw [nextValue_value hu, nextValue_value hu']
    exact sameLiveBits_emitPair huu _ _
  · rwa [nextValue_raised hu, nextValue_raised hu']

theorem sameLiveBits_nextRecord {s s' : State} (h : s.sameLiveBits s') (id : AttrId) :
    (nextRecord id s).sameLiveBits (nextRecord id s') := by
  by_cases hid : id = literals.terminatorId
  · rw [hid, nextRecord_terminator, nextRecord_terminator]
    exact sameLiveBits_ard h .done
  cases hwidth : widthOf id with
  | none =>
    rw [nextRecord_unknown hid hwidth, nextRecord_unknown hid hwidth]
    exact sameLiveBits_raiseFault h _ _
  | some w =>
    rw [nextRecord_known hid hwidth, nextRecord_known hid hwidth]
    exact sameLiveBits_nextValue h id w

/-- The outcomes of two runs: next states that agree but for stale bits. -/
def SameOutcome (o o' : Host.Outcome State Fault Refusal) : Prop :=
  ∃ t t', o = .next t ∧ o' = .next t' ∧ t.sameLiveBits t'

section Unlatched
variable {s s' : State} (h : s.sameLiveBits s') (hf : s.fault = false)
include h hf

theorem sameOutcome_read (n : Nat) (rev : Bool) : SameOutcome (exec (.read n rev) s) (exec (.read n rev) s') := by
  have hf' : s'.fault = false := (fault_eq_of_sameLiveBits h).trans hf
  rcases sameLiveBits_readField h n rev with ⟨v, u, u', hu, hu', huu⟩ | ⟨u, u', hu, hu', huu⟩
  · exact ⟨_, _, exec_read_value hf hu, exec_read_value hf' hu', sameLiveBits_result huu v⟩
  · exact ⟨_, _, exec_read_raised hf hu, exec_read_raised hf' hu', huu⟩

theorem sameOutcome_bitrev (n : Nat) : SameOutcome (exec (.bitrev n) s) (exec (.bitrev n) s') := by
  have hf' : s'.fault = false := (fault_eq_of_sameLiveBits h).trans hf
  by_cases hn : legalWidth n = true
  · obtain ⟨r', hr, rfl⟩ := sameLiveBits_iff.1 h
    exact ⟨_, _, exec_bitrev_legal hf hn, exec_bitrev_legal hf' hn, sameLiveBits_result h (bitReverse s.din n)⟩
  · exact ⟨_, _, exec_bitrev_illegal hf hn, exec_bitrev_illegal hf' hn, sameLiveBits_raiseFault h _ _⟩

theorem sameOutcome_next : SameOutcome (exec .next s) (exec .next s') := by
  have hf' : s'.fault = false := (fault_eq_of_sameLiveBits h).trans hf
  cases ha : s.ard with
  | done =>
    have ha' : s'.ard = .done := (ard_eq_of_sameLiveBits h).trans ha
    exact ⟨_, _, exec_next_done hf ha, exec_next_done hf' ha', sameLiveBits_refuse h⟩
  | reading =>
    have ha' : s'.ard = .reading := (ard_eq_of_sameLiveBits h).trans ha
    rcases sameLiveBits_readField h 9 true with ⟨v, u, u', hu, hu', huu⟩ | ⟨u, u', hu, hu', huu⟩
    · exact ⟨_, _, exec_next_value hf ha hu, exec_next_value hf' ha' hu', sameLiveBits_nextRecord huu _⟩
    · exact ⟨_, _, exec_next_raised hf ha hu, exec_next_raised hf' ha' hu', huu⟩

end Unlatched

theorem sameOutcome_latched {s s' : State} (h : s.sameLiveBits s') (hf : s.fault = true) {i : Instr} (hstat : i ≠ .stat)
    (hinit : i ≠ .init) : SameOutcome (exec i s) (exec i s') :=
  ⟨_, _, exec_latched hf hstat hinit, exec_latched ((fault_eq_of_sameLiveBits h).trans hf) hstat hinit,
    sameLiveBits_refuse h⟩

theorem sameOutcome_exec {s s' : State} (h : s.sameLiveBits s') (i : Instr) : SameOutcome (exec i s) (exec i s') := by
  by_cases hstat : i = .stat
  · subst hstat
    exact ⟨_, _, exec_stat s, exec_stat s', sameLiveBits_refuse h⟩
  by_cases hinit : i = .init
  · subst hinit
    refine ⟨_, _, exec_init s, exec_init s', ?_⟩
    rw [presented_eq_of_sameLiveBits h]
    exact sameLiveBits_beginSession h _
  cases hf : s.fault with
  | true => exact sameOutcome_latched h hf hstat hinit
  | false =>
    cases i with
    | stat => contradiction
    | init => contradiction
    | read n rev => exact sameOutcome_read h hf n rev
    | bitrev n => exact sameOutcome_bitrev h hf n
    | next => exact sameOutcome_next h hf

theorem sameLiveBits_illegalWord {s s' : State} (h : s.sameLiveBits s') (w : CommandWord) :
    (s.illegalWord w).sameLiveBits (s'.illegalWord w) := by
  have hfault := fault_eq_of_sameLiveBits h
  cases hf : s.fault with
  | true =>
    rw [illegalWord_latched hf, illegalWord_latched (hfault.trans hf)]
    exact sameLiveBits_refuse h
  | false =>
    rw [illegalWord_clear hf, illegalWord_clear (hfault.trans hf)]
    exact sameLiveBits_raiseFault h _ _

theorem sameOutcome_step {s s' : State} (h : s.sameLiveBits s') : SameOutcome (step s) (step s') := by
  have hcommands := commands_eq_of_sameLiveBits h
  cases hc : s.commands with
  | nil => exact ⟨s, s', step_nil hc, step_nil (hcommands.trans hc), h⟩
  | cons c rest =>
    have hport := sameLiveBits_onPort h c rest
    cases hw : decode c.word with
    | ok i =>
      rw [step_legal hc hw, step_legal (hcommands.trans hc) hw]
      exact sameOutcome_exec hport i
    | error e =>
      exact ⟨_, _, step_illegal hc hw, step_illegal (hcommands.trans hc) hw, sameLiveBits_illegalWord hport c.word⟩

/-- Settles O46: the steps agree by `sameOutcome_step`, and the host's view has no part of the window. -/
theorem staleBitsUnobservable : Obligations.StaleBitsUnobservable := by
  intro s s' t h hstep
  obtain ⟨u, t', hu, hstep', htt⟩ := sameOutcome_step h
  obtain rfl : t = u := Host.Outcome.next.inj (hstep.symm.trans hu)
  exact ⟨t', hstep', htt, hostView_eq_of_sameLiveBits htt⟩

end Sys2Proof.Proofs
end

/-! ## The byte source the host presents (20_memory.md R60) -/

section
namespace Sys2Proof.Proofs

open Sys2Proof.Machine

/-- Settles O49: the cut at the region's end is a `take`, the cut before byte 767 a `drop`. -/
theorem sourceIsTheAttributeRegion : Obligations.SourceIsTheAttributeRegion := by
  intro file regionEnd i
  rw [attrSource, show literals.attrBlockOffset = 767 from rfl, List.getElem?_drop, List.getElem?_take]

end Sys2Proof.Proofs
end

/-! ## No command writes the host port (20_memory.md R61, R64) -/

section
namespace Sys2Proof.Proofs

open Sys2Proof.Machine

/-- The host port of `t` is that of `s`. -/
structure SamePort (s t : State) : Prop where
  din : t.din = s.din
  presented : t.presented = s.presented
  commands : t.commands = s.commands

theorem SamePort.trans {s t u : State} (h : SamePort s t) (h' : SamePort t u) : SamePort s u :=
  ⟨h'.din.trans h.din, h'.presented.trans h.presented, h'.commands.trans h.commands⟩

theorem samePort_refuse (s : State) : SamePort s s.refuse := ⟨rfl, rfl, rfl⟩

theorem samePort_raiseFault (s : State) (c : Cause) (info : Word32) : SamePort s (s.raiseFault c info) :=
  ⟨rfl, rfl, rfl⟩

theorem samePort_emitPair (s : State) (id : AttrId) (value : Word32) : SamePort s (s.emitPair id value) :=
  ⟨rfl, rfl, rfl⟩

/-- However a `Read` ends, the port is as it was. -/
theorem samePort_readField (s : State) (n : Nat) (rev : Bool) :
    (∃ v u, s.readField n rev = .value v u ∧ SamePort s u) ∨ (∃ u, s.readField n rev = .raised u ∧ SamePort s u) := by
  rcases readField_cases s n rev with ⟨-, hr⟩ | ⟨-, -, q, -, -, -, hr⟩ | ⟨-, -, q, -, -, -, hr⟩
  · exact .inr ⟨_, hr, samePort_raiseFault s _ _⟩
  · exact .inl ⟨_, _, hr, ⟨rfl, rfl, rfl⟩⟩
  · exact .inr ⟨_, hr, ⟨rfl, rfl, rfl⟩⟩

theorem samePort_nextRecord (s : State) (id : AttrId) : SamePort s (nextRecord id s) := by
  by_cases hid : id = literals.terminatorId
  · rw [hid, nextRecord_terminator]
    exact ⟨rfl, rfl, rfl⟩
  cases hwidth : widthOf id with
  | none =>
    rw [nextRecord_unknown hid hwidth]
    exact samePort_raiseFault s _ _
  | some w =>
    rw [nextRecord_known hid hwidth]
    rcases samePort_readField s w true with ⟨v, u, hr, hu⟩ | ⟨u, hr, hu⟩
    · rw [nextValue_value hr]
      exact hu.trans (samePort_emitPair u _ _)
    · rwa [nextValue_raised hr]

section Unlatched
variable {s t : State} (hf : s.fault = false)
include hf

theorem samePort_read {n : Nat} {rev : Bool} (h : exec (.read n rev) s = .next t) : SamePort s t := by
  rcases samePort_readField s n rev with ⟨v, u, hr, hu⟩ | ⟨u, hr, hu⟩
  · rw [exec_read_value hf hr] at h
    cases h
    exact hu.trans ⟨rfl, rfl, rfl⟩
  · rw [exec_read_raised hf hr] at h
    cases h
    exact hu

theorem samePort_bitrev {n : Nat} (h : exec (.bitrev n) s = .next t) : SamePort s t := by
  by_cases hn : legalWidth n = true
  · rw [exec_bitrev_legal hf hn] at h
    cases h
    exact ⟨rfl, rfl, rfl⟩
  · rw [exec_bitrev_illegal hf hn] at h
    cases h
    exact samePort_raiseFault s _ _

theorem samePort_next (h : exec .next s = .next t) : SamePort s t := by
  cases ha : s.ard with
  | done =>
    rw [exec_next_done hf ha] at h
    cases h
    exact samePort_refuse s
  | reading =>
    rcases samePort_readField s 9 true with ⟨v, u, hr, hu⟩ | ⟨u, hr, hu⟩
    · rw [exec_next_value hf ha hr] at h
      cases h
      exact hu.trans (samePort_nextRecord u _)
    · rw [exec_next_raised hf ha hr] at h
      cases h
      exact hu

end Unlatched

theorem samePort_exec {i : Instr} {s t : State} (h : exec i s = .next t) : SamePort s t := by
  by_cases hstat : i = .stat
  · subst hstat
    cases h
    exact samePort_refuse s
  by_cases hinit : i = .init
  · subst hinit
    cases h
    exact ⟨rfl, rfl, rfl⟩
  cases hf : s.fault with
  | true =>
    rw [exec_latched hf hstat hinit] at h
    cases h
    exact samePort_refuse s
  | false =>
    cases i with
    | stat => contradiction
    | init => contradiction
    | read n rev => exact samePort_read hf h
    | bitrev n => exact samePort_bitrev hf h
    | next => exact samePort_next hf h

/-- Settles O11, by `samePort_exec`; it speaks of widths that no word can carry too, so it does not go through
`Performs`. -/
theorem commandsLeaveTheHostPort : Obligations.CommandsLeaveTheHostPort := by
  intro i s t h
  obtain ⟨hdin, hpresented, hcommands⟩ := samePort_exec h
  exact ⟨hdin, hpresented, hcommands⟩

end Sys2Proof.Proofs
end

/-! ## Numbers written in bits: the sums of 20_memory.md R54 and R56 -/

section
namespace Sys2Proof.Proofs

open Sys2Proof.Machine

/-- The number whose bit `i`, for `i < w`, is `b i`: the sum that `fieldValue` and `fieldAhead` share. -/
def bitsValue (b : Nat → Bool) : Nat → Nat
  | 0 => 0
  | w + 1 => bitsValue b w + (b w).toNat * 2 ^ w

theorem fieldValue_eq_bitsValue (src : List Byte) (p w : Nat) :
    fieldValue src p w = bitsValue (fun i => srcBit src (p + i)) w := by
  induction w with
  | zero => rfl
  | succ w ih => rw [fieldValue, bitsValue, ih]

theorem fieldAhead_eq_bitsValue (r : Reader) (offset w : Nat) :
    r.fieldAhead offset w = bitsValue (fun i => r.bitAhead (offset + i)) w := by
  induction w with
  | zero => rfl
  | succ w ih => rw [Reader.fieldAhead, bitsValue, ih]

theorem bitsValue_lt (b : Nat → Bool) (w : Nat) : bitsValue b w < 2 ^ w := by
  induction w with
  | zero => exact Nat.one_pos
  | succ w ih =>
    rw [bitsValue, pow_succ]
    cases b w <;> simp <;> omega

theorem bitsValue_testBit (b : Nat → Bool) (w i : Nat) :
    (bitsValue b w).testBit i = (decide (i < w) && b i) := by
  induction w with
  | zero => simp [bitsValue]
  | succ w ih =>
    rw [bitsValue, Nat.add_comm, Nat.mul_comm, Nat.testBit_two_pow_mul_add _ (bitsValue_lt b w), ih]
    rcases Nat.lt_trichotomy i w with h | rfl | h
    · simp [h, Nat.lt_succ_of_lt h]
    · cases b i <;> simp
    · rw [if_neg h.not_gt, decide_eq_false (by omega), Bool.false_and]
      have hbit : (b w).toNat < 2 ^ (i - w) :=
        (Bool.toNat_lt _).trans_le (Nat.pow_le_pow_right Nat.two_pos (by omega : 1 ≤ i - w))
      exact Nat.testBit_lt_two_pow hbit

/-- The first of the `n` stream bits is the most significant (R54). -/
theorem streamValue_testBit (f : List Byte) (p n i : Nat) :
    (streamValue f p n).testBit i = (decide (i < n) && streamBit f (p + (n - 1 - i))) := by
  induction n generalizing i with
  | zero => simp [streamValue]
  | succ n ih =>
    rw [streamValue, ← Nat.bit_val]
    cases i with
    | zero => simp
    | succ i =>
      rw [Nat.testBit_bit_succ, ih, show n + 1 - 1 - (i + 1) = n - 1 - i by omega]
      simp

end Sys2Proof.Proofs
end

/-! ## What a reader that feeds and takes bits still has ahead of it (20_memory.md R54 to R56) -/

section
namespace Sys2Proof.Proofs

open Sys2Proof.Machine

theorem bitAhead_pending {r : Reader} {j : Nat} (hj : j < r.pending) :
    r.bitAhead j = r.window.getLsbD (r.pending - 1 - j) :=
  if_pos hj

theorem bitAhead_source {r : Reader} {j : Nat} (hj : r.pending ≤ j) :
    r.bitAhead j = srcBit r.src (8 * r.pos + (j - r.pending)) :=
  if_neg hj.not_gt

/-- A field taken from the pending bits, with its bits turned around as NEXT and FIELD do, is the number whose first
bit is the first bit ahead (R56). -/
theorem bitReverse_field_toNat {r : Reader} {n : Nat} (hn : n ≤ 32) (hlive : n ≤ r.pending) :
    (bitReverse (r.field n) n).toNat = r.fieldAhead 0 n := by
  refine Nat.eq_of_testBit_eq fun i => ?_
  rw [fieldAhead_eq_bitsValue, bitsValue_testBit, BitVec.testBit_toNat, bitReverse_getLsbD _ _ hn]
  by_cases hi : i < n
  · rw [field_getLsbD _ _ _ hn, Nat.zero_add, bitAhead_pending (by omega),
      show r.pending - n + (n - 1 - i) = r.pending - 1 - i by omega, decide_eq_true (by omega : n - 1 - i < n),
      Bool.true_and]
  · simp [hi]

/-- Taking `n` pending bits moves the bits ahead up by `n`. -/
theorem bitAhead_consume {r : Reader} {n : Nat} (hlive : n ≤ r.pending) (j : Nat) :
    (r.consume n).bitAhead j = r.bitAhead (n + j) := by
  rcases Nat.lt_or_ge (n + j) r.pending with hj | hj
  · rw [bitAhead_pending (Nat.lt_sub_iff_add_lt'.2 hj), bitAhead_pending hj, Reader.consume_window,
      Reader.consume_pending, show r.pending - n - 1 - j = r.pending - 1 - (n + j) by omega]
  · rw [bitAhead_source (Nat.sub_le_iff_le_add'.2 hj), bitAhead_source hj, Reader.consume_src, Reader.consume_pos,
      Reader.consume_pending, show j - (r.pending - n) = n + j - r.pending by omega]

/-- Bit `j` of byte `pos` of the source. -/
theorem srcBit_of_lt {src : List Byte} {pos j : Nat} (h : pos < src.length) (hj : j < 8) :
    srcBit src (8 * pos + j) = src[pos].getLsbD j := by
  rw [srcBit, show (8 * pos + j) / 8 = pos by omega, show (8 * pos + j) % 8 = j by omega, List.getElem?_eq_getElem h,
    Option.getD_some]

/-- A feed with reversal leaves the bits ahead as they were: it puts the next byte's least significant bit first (R55,
R57). -/
theorem bitAhead_feed {r : Reader} (h : r.pos < r.src.length) (hroom : r.pending + 8 ≤ 64) (j : Nat) :
    (Reader.feed { r with pos := r.pos + 1 } true r.src[r.pos]).bitAhead j = r.bitAhead j := by
  rcases Nat.lt_or_ge j (r.pending + 8) with hlive | hahead
  · rw [bitAhead_pending hlive, Reader.feed_window, Reader.feed_pending, pushByte_getLsbD,
      decide_eq_true (by dsimp only; omega), Bool.true_and, fedByte, if_pos rfl]
    rcases Nat.lt_or_ge j r.pending with hold | hnew
    · rw [if_neg (by dsimp only; omega), bitAhead_pending hold]
      exact congrArg _ (by dsimp only; omega)
    · rw [if_pos (by dsimp only; omega), bitAhead_source hnew, srcBit_of_lt h (by omega), rev8_getLsbD,
        decide_eq_true (by dsimp only; omega), Bool.true_and]
      exact congrArg _ (by dsimp only; omega)
  · rw [bitAhead_source hahead, bitAhead_source (by omega), Reader.feed_src, Reader.feed_pos, Reader.feed_pending]
    exact congrArg _ (by dsimp only; omega)

theorem bitAhead_feedMany (k : Nat) {r : Reader} (h : r.pos + k ≤ r.src.length) (hroom : r.pending + 8 * k ≤ 64)
    (j : Nat) : (r.feedMany true k).bitAhead j = r.bitAhead j := by
  induction k generalizing r with
  | zero => rw [feedMany_zero]
  | succ k ih =>
    have hlt : r.pos < r.src.length := by omega
    rw [feedMany_succ true k hlt, ih (by simp; omega) (by simp; omega), bitAhead_feed hlt (by omega)]

/-- `r'` is `r` after `n` bits were taken with reversed feeds, over as few bytes as hold them (R104). -/
structure TakesBits (n : Nat) (r r' : Reader) : Prop where
  src : r'.src = r.src
  pos : r'.pos = r.pos + feedsNeeded n r.pending
  pending : r'.pending = r.pending + 8 * feedsNeeded n r.pending - n
  bitAhead : ∀ j, r'.bitAhead j = r.bitAhead (n + j)

/-- Taking `m` bits and then `n` takes `m + n`. -/
theorem TakesBits.trans {m n : Nat} {r r' r'' : Reader} (h : TakesBits m r r') (h' : TakesBits n r' r'')
    (hr : r.pending ≤ 7) : TakesBits (m + n) r r'' := by
  obtain ⟨hsrc, hpos, hpending, hahead⟩ := h
  obtain ⟨hsrc', hpos', hpending', hahead'⟩ := h'
  refine ⟨hsrc'.trans hsrc, ?_, ?_, fun j => by rw [hahead', hahead, Nat.add_assoc]⟩
  · simp only [feedsNeeded] at *
    omega
  · simp only [feedsNeeded] at *
    omega

section Taken
variable {n : Nat} {r r' : Reader} (h : TakesBits n r r')
include h

theorem TakesBits.pending_le_seven (hr : r.pending ≤ 7) : r'.pending ≤ 7 := by
  have hpending := h.pending
  simp only [feedsNeeded] at hpending
  omega

theorem TakesBits.pos_le (hr : r.pos ≤ r.src.length) (henough : n ≤ r.bitsLeft) : r'.pos ≤ r'.src.length := by
  rw [h.src, h.pos, feedsNeeded]
  simp only [Reader.bitsLeft] at henough
  omega

theorem TakesBits.bitsLeft (hr : r.pos ≤ r.src.length) (henough : n ≤ r.bitsLeft) :
    r'.bitsLeft = r.bitsLeft - n := by
  simp only [Reader.bitsLeft, h.src, h.pos, h.pending, feedsNeeded] at *
  omega

theorem TakesBits.fieldAhead (offset w : Nat) : r'.fieldAhead offset w = r.fieldAhead (n + offset) w := by
  simp only [fieldAhead_eq_bitsValue, h.bitAhead, Nat.add_assoc]

/-- Bits are pending only from bytes that were pulled, and the stream position advances by the bits taken (R36). -/
theorem TakesBits.position (hr : r.pending ≤ 8 * r.pos) :
    r'.pending ≤ 8 * r'.pos ∧ r'.position = r.position + n := by
  simp only [Reader.position, h.pos, h.pending, feedsNeeded]
  omega

end Taken

/-- What a feed loop with reversal that ends filled makes available: the field ahead, and behind it what was behind it
before. -/
theorem fill_filled_takes {n : Nat} {r q : Reader} (hn : n ≤ 32) (hr : r.pending ≤ 7)
    (hq : r.fill n true n = .filled q) :
    (bitReverse (q.field n) n).toNat = r.fieldAhead 0 n ∧ TakesBits n r (q.consume n) := by
  have hlive : n ≤ q.pending := le_pending_of_filled hq
  obtain ⟨hsrc, hpos, hpending, -⟩ := fill_filled_counts hq
  have hahead : ∀ j, q.bitAhead j = r.bitAhead j := by
    obtain ⟨rfl, hnone | hroom⟩ := fill_filled hq
    · rw [hnone, feedMany_zero]
      exact fun _ => rfl
    · exact bitAhead_feedMany _ hroom (by simp only [feedsNeeded]; omega)
  refine ⟨?_, hsrc, hpos, congrArg (· - n) hpending, fun j => ?_⟩
  · rw [bitReverse_field_toNat hn hlive]
    simp only [fieldAhead_eq_bitsValue, hahead]
  · rw [bitAhead_consume hlive, hahead]

/-- The feed loop ends filled where the bits left suffice. -/
theorem fill_filled_of_bitsLeft {n : Nat} {rev : Bool} {r : Reader} (hr : r.pos ≤ r.src.length)
    (henough : n ≤ r.bitsLeft) : ∃ q, r.fill n rev n = .filled q := by
  refine ⟨_, fill_enough n (by simp only [feedsNeeded]; omega) ?_⟩
  simp only [Reader.bitsLeft, feedsNeeded] at *
  omega

/-- The feed loop runs out of bytes where they do not. -/
theorem fill_exhausted_of_bitsLeft {n : Nat} {rev : Bool} {r : Reader} (hr : r.pos ≤ r.src.length)
    (hshort : r.bitsLeft < n) : ∃ q, r.fill n rev n = .exhausted q := by
  obtain ⟨q, hq, -⟩ := fill_short (rev := rev) (n := n) n (by simp only [feedsNeeded]; omega) hr
    (by simp only [Reader.bitsLeft, feedsNeeded] at *; omega)
  exact ⟨q, hq⟩

end Sys2Proof.Proofs
end

/-! ## Reversed feeds read the source's fields (20_memory.md R55, R56) -/

section
namespace Sys2Proof.Proofs

open Sys2Proof.Machine

theorem pending_le_seven_of_reversed {r : Reader} (h : r.pendingReversed) : r.pending ≤ 7 := h.1

theorem pending_fed_of_reversed {r : Reader} (h : r.pendingReversed) : r.pending ≤ 8 * r.pos := h.2.1

/-- A reader that has fed nothing. -/
theorem pendingReversed_fresh (bytes : List Byte) : (Reader.fresh bytes).pendingReversed :=
  ⟨Nat.zero_le _, Nat.zero_le _, nofun⟩

/-- The pending bits were fed with reversal exactly where the bits ahead are the source's from the stream position on
(R55). -/
theorem pendingReversed_iff (r : Reader) :
    r.pendingReversed ↔
      r.pending ≤ 7 ∧ r.pending ≤ 8 * r.pos ∧ ∀ j, r.bitAhead j = srcBit r.src (r.position + j) := by
  refine and_congr_right fun _ => and_congr_right fun hfed => ⟨fun h j => ?_, fun h k hk => ?_⟩
  · rcases Nat.lt_or_ge j r.pending with hj | hj
    · rw [bitAhead_pending hj, h _ (by omega), Reader.position,
        show 8 * r.pos - 1 - (r.pending - 1 - j) = 8 * r.pos - r.pending + j by omega]
    · rw [bitAhead_source hj, Reader.position,
        show 8 * r.pos + (j - r.pending) = 8 * r.pos - r.pending + j by omega]
  · have hbit := h (r.pending - 1 - k)
    rwa [bitAhead_pending (by omega), Reader.position, show r.pending - 1 - (r.pending - 1 - k) = k by omega,
      show 8 * r.pos - r.pending + (r.pending - 1 - k) = 8 * r.pos - 1 - k by omega] at hbit

theorem fieldAhead_eq_fieldValue {r : Reader} (h : r.pendingReversed) (offset w : Nat) :
    r.fieldAhead offset w = fieldValue r.src (r.position + offset) w := by
  obtain ⟨-, -, hahead⟩ := (pendingReversed_iff r).1 h
  simp only [fieldAhead_eq_bitsValue, fieldValue_eq_bitsValue, hahead, Nat.add_assoc]

theorem TakesBits.pendingReversed {n : Nat} {r r' : Reader} (h : TakesBits n r r') (hr : r.pendingReversed) :
    r'.pendingReversed := by
  obtain ⟨hseven, hfed, hahead⟩ := (pendingReversed_iff r).1 hr
  obtain ⟨hfed', hposition⟩ := h.position hfed
  refine (pendingReversed_iff r').2 ⟨h.pending_le_seven hseven, hfed', fun j => ?_⟩
  rw [h.bitAhead, hahead, h.src, hposition, Nat.add_assoc]

theorem pendingReversed_tookField {s : State} {n : Nat} {q : Reader} (hn : n ≤ 32) (hs : s.bsr.pendingReversed)
    (hq : s.bsr.fill n true n = .filled q) : (tookField s q n).bsr.pendingReversed := by
  obtain ⟨-, htakes⟩ := fill_filled_takes hn (pending_le_seven_of_reversed hs) hq
  exact htakes.pendingReversed hs

/-- Every command but a READ without reversal, if it does not fault, keeps the pending bits reversed (R55). -/
theorem performs_pendingReversed {s t : State} {w : CommandWord} (h : Performs s w t)
    (hw : ∀ n, decode w ≠ .ok (.read n false)) (hs : s.bsr.pendingReversed) (ht : t.fault = false) :
    t.bsr.pendingReversed := by
  cases h with
  | init => exact pendingReversed_fresh _
  | stat | refused | bitrevValue | nextDone => exact hs
  | @readValue n rev q _ hread _ h32 hq =>
    cases rev with
    | false => exact absurd hread (hw n)
    | true => exact pendingReversed_tookField h32 hs hq
  | nextTerminator _ _ _ hq => exact pendingReversed_tookField (by decide) hs hq
  | nextEmit _ _ _ hq _ hwidth hp =>
    have hid := pendingReversed_tookField (by decide) hs hq
    exact pendingReversed_tookField (s := tookField s _ 9) (legalWidth_of_widthOf hwidth).2 hid hp
  | illegal | readWidth | readShort | bitrevWidth | nextShortId | nextUnknown | nextShortValue => cases ht

/-- READ.REV at every width, those that no word can carry among them. -/
theorem exec_readRev_pendingReversed {s t : State} {n : Nat} (hf : s.fault = false) (hs : s.bsr.pendingReversed)
    (h : exec (.read n true) s = .next t) (ht : t.fault = false) : t.bsr.pendingReversed := by
  by_cases hn : 1 ≤ n ∧ n ≤ 32
  · obtain ⟨h1, h32⟩ := hn
    rcases readField_legal s true h1 h32 with ⟨q, hq, hr⟩ | ⟨q, -, hr⟩
    · rw [exec_read_value hf hr] at h
      cases h
      exact pendingReversed_tookField h32 hs hq
    · rw [exec_read_raised hf hr] at h
      cases h
      cases ht
  · rw [exec_read_raised hf (readField_illegal (by omega) true)] at h
    cases h
    cases ht

/-- Settles O29: the field ahead by the bits ahead, NEXT as a performed word, READ.REV by its own rule. -/
theorem reversedFieldsAreSourceFields : Obligations.ReversedFieldsAreSourceFields := by
  refine ⟨fun r offset w h => fieldAhead_eq_fieldValue h offset w, ?_⟩
  rintro i s t (rfl | ⟨n, rfl⟩) hf hs h ht
  · have hnext : decode 0x4000 = .ok .next := by decide
    exact performs_pendingReversed (execNext_performs hf hnext h) (fun _ hread => nomatch hnext.symm.trans hread) hs ht
  · exact exec_readRev_pendingReversed hf hs h ht

end Sys2Proof.Proofs
end

/-! ## READ takes the bits of the fed-bit stream (20_memory.md R54) -/

section
namespace Sys2Proof.Proofs

open Sys2Proof.Machine

theorem streamBit_append_left {f g : List Byte} {q : Nat} (h : q < 8 * f.length) :
    streamBit (f ++ g) q = streamBit f q := by
  rw [streamBit, List.getElem?_append_left (by omega), streamBit]

/-- Bit `j` of a byte just fed, counted from its least significant, is the last but `j` of the stream. -/
theorem streamBit_append_last (f : List Byte) (b : Byte) {j : Nat} (hj : j < 8) :
    streamBit (f ++ [b]) (8 * (f.length + 1) - 1 - j) = b.getLsbD j := by
  rw [streamBit, show (8 * (f.length + 1) - 1 - j) / 8 = f.length by omega, List.getElem?_concat_length,
    show 7 - (8 * (f.length + 1) - 1 - j) % 8 = j by omega, Option.getD_some]

theorem hasFed_feed {r : Reader} {f : List Byte} (h : r.hasFed f) (hroom : r.pending + 8 ≤ 64) (rev : Bool)
    (raw : Byte) : (Reader.feed { r with pos := r.pos + 1 } rev raw).hasFed (f ++ [fedByte rev raw]) := by
  obtain ⟨hlength, hfed, hbits⟩ := h
  refine ⟨by simp [hlength], by simp; omega, fun k hk => ?_⟩
  rw [Reader.feed_pending] at hk
  dsimp only at hk
  rw [Reader.feed_window, Reader.feed_pos, pushByte_getLsbD, decide_eq_true (by omega), Bool.true_and]
  dsimp only
  rw [← hlength]
  rcases Nat.lt_or_ge k 8 with hnew | hold
  · rw [if_pos hnew, streamBit_append_last f _ hnew]
  · rw [if_neg hold.not_gt, hbits _ (by omega), streamBit_append_left (by omega), ← hlength,
      show 8 * (f.length + 1) - 1 - k = 8 * f.length - 1 - (k - 8) by omega]

/-- Feeding `k` bytes appends them to the fed bytes, each reversed where the READ asks for it. -/
theorem hasFed_feedMany (k : Nat) {r : Reader} {f : List Byte} (h : r.hasFed f) (hs : r.pos + k ≤ r.src.length)
    (hroom : r.pending + 8 * k ≤ 64) (rev : Bool) :
    (r.feedMany rev k).hasFed (f ++ ((r.src.drop r.pos).take k).map (fedByte rev)) := by
  induction k generalizing r f with
  | zero => simpa using h
  | succ k ih =>
    have hlt : r.pos < r.src.length := by omega
    have htail := ih (hasFed_feed h (by omega) rev r.src[r.pos]) (by simp; omega) (by simp; omega)
    rw [feedMany_succ rev k hlt, List.drop_eq_getElem_cons hlt, List.take_succ_cons, List.map_cons, List.append_cons]
    exact htail

theorem hasFed_consume {r : Reader} {f : List Byte} (h : r.hasFed f) (n : Nat) : (r.consume n).hasFed f := by
  obtain ⟨hlength, hfed, hbits⟩ := h
  exact ⟨hlength, (Nat.sub_le _ _).trans hfed, fun k hk => hbits k (hk.trans_le (Nat.sub_le _ _))⟩

/-- A feed loop that ends filled has fed the bytes between its two cursors. -/
theorem fill_filled_hasFed {n : Nat} {rev : Bool} {r q : Reader} {f : List Byte} (h : r.hasFed f) (hn : n ≤ 32)
    (hr : r.pending ≤ 7) (hq : r.fill n rev n = .filled q) :
    q.hasFed (f ++ ((r.src.drop r.pos).take (q.pos - r.pos)).map (fedByte rev)) := by
  obtain ⟨-, hpos, -, -⟩ := fill_filled_counts hq
  rw [hpos, Nat.add_sub_cancel_left]
  obtain ⟨rfl, hnone | hroom⟩ := fill_filled hq
  · simpa [hnone] using h
  · exact hasFed_feedMany _ h hroom (by simp only [feedsNeeded]; omega) rev

/-- Feeding does not move the stream position; taking `n` bits moves it by `n` (R36). -/
theorem fill_filled_position {n : Nat} {rev : Bool} {r q : Reader} (hfed : r.pending ≤ 8 * r.pos)
    (hq : r.fill n rev n = .filled q) :
    q.position = r.position ∧ (q.consume n).position = r.position + n := by
  have hlive := le_pending_of_filled hq
  obtain ⟨-, hpos, hpending, -⟩ := fill_filled_counts hq
  simp only [Reader.position, Reader.consume_pos, Reader.consume_pending]
  omega

/-- A reader with at most 7 pending bits has pulled as few bytes as hold the bits taken (R36). -/
theorem pos_eq_bytesFor_position {r : Reader} (hr : r.pending ≤ 7) (hfed : r.pending ≤ 8 * r.pos) :
    r.pos = bytesFor r.position := by
  simp only [bytesFor, Reader.position]
  omega

/-- A field taken from the pending bits is the number of the stream bits at the reader's position (R54). -/
theorem field_toNat_eq_streamValue {r : Reader} {f : List Byte} {n : Nat} (h : r.hasFed f) (hn : n ≤ 32)
    (hlive : n ≤ r.pending) : (r.field n).toNat = streamValue f r.position n := by
  obtain ⟨-, hfed, hbits⟩ := h
  refine Nat.eq_of_testBit_eq fun i => ?_
  rw [BitVec.testBit_toNat, field_getLsbD r n i hn, streamValue_testBit]
  by_cases hi : i < n
  · rw [hbits _ (by omega), Reader.position,
      show 8 * r.pos - 1 - (r.pending - n + i) = 8 * r.pos - r.pending + (n - 1 - i) by omega]
  · simp [hi]

/-- Settles O21: the feeds by `fill_filled_hasFed`, the field by `field_toNat_eq_streamValue`. -/
theorem readReturnsFedStreamBits : Obligations.ReadReturnsFedStreamBits := by
  intro s n rev f hf h1 h32 hseven hfed henough
  obtain ⟨-, hbytes, -⟩ := id hfed
  obtain ⟨hpos, hleft⟩ : s.bsr.pos ≤ s.bsr.src.length ∧ n ≤ s.bsr.bitsLeft := by
    simp only [Reader.position, Reader.bitsLeft] at *
    omega
  obtain ⟨q, hq⟩ := fill_filled_of_bitsLeft (rev := rev) hpos hleft
  have hstream := fill_filled_hasFed hfed h32 hseven hq
  obtain ⟨hsame, hmoved⟩ := fill_filled_position hbytes hq
  have hseven' := consume_pending_le_seven hq hseven
  refine ⟨_, _, exec_read_value hf (readField_filled h1 h32 hq), hf, rfl, hasFed_consume hstream n, ?_, hmoved, ?_,
    hseven'⟩
  · rw [← hsame]
    exact field_toNat_eq_streamValue hstream h32 (le_pending_of_filled hq)
  · rw [← hmoved]
    exact pos_eq_bytesFor_position hseven' (consume_pending_fed hq hbytes)

end Sys2Proof.Proofs
end

/-! ## The constant data in numbers (41_record_decoder.md R131, R132) -/

section
namespace Sys2Proof.Proofs

open Sys2Proof.Machine

/-- The machine's width table and the reference's (R131). -/
theorem widthOf_eq_attrWidth (id : AttrId) : widthOf id = attrWidth id.toNat := by
  by_cases hid : id.toNat < 16
  · have hlisted : ∀ n < 16, widthOf (BitVec.ofNat 9 n) = attrWidth n := by decide
    simpa using hlisted id.toNat hid
  · have hkeys : ∀ p ∈ literals.widthTable, p.1.toNat < 16 := by decide
    have hnone : widthOf id = none := by
      refine List.lookup_eq_none_iff.2 fun p hp => ?_
      have hne : id ≠ p.1 := fun heq => hid (heq ▸ hkeys p hp)
      simpa using hne
    have hunlisted : attrWidth id.toNat = none := by
      rw [attrWidth, if_neg (by omega), if_neg (by omega), if_neg (by omega), if_neg (by omega), if_neg (by omega),
        if_neg (by omega)]
    rw [hnone, hunlisted]

/-- A record of a listed ID has at least 16 bits (R139). -/
theorem seven_le_of_attrWidth {id w : Nat} (h : attrWidth id = some w) : 7 ≤ w := by
  simp only [attrWidth] at h
  split_ifs at h <;> cases h <;> decide

theorem mem_resourceIds_iff (id : AttrId) : id ∈ literals.resourceIds ↔ 6 ≤ id.toNat ∧ id.toNat ≤ 11 := by
  simp only [literals, BitVec.ofNat_eq_ofNat, List.mem_cons, List.not_mem_nil, or_false, ← BitVec.toNat_inj,
    BitVec.toNat_ofNat, Nat.reducePow, Nat.reduceMod]
  omega

/-- The machine's scaling and the reference's (R132). -/
theorem scaleValue_eq_emittedValue (id : AttrId) (v : Word32) :
    scaleValue id v = BitVec.ofNat 32 (emittedValue id.toNat v.toNat) := by
  by_cases hres : id ∈ literals.resourceIds
  · rw [scaleValue, if_pos (List.contains_iff_mem.2 hres), emittedValue, if_pos ((mem_resourceIds_iff id).1 hres)]
    rfl
  · rw [scaleValue, if_neg (mt List.contains_iff_mem.1 hres), emittedValue, if_neg (mt (mem_resourceIds_iff id).2 hres),
      BitVec.ofNat_toNat, BitVec.setWidth_eq]

end Sys2Proof.Proofs
end

/-! ## NEXT in terms of the bits ahead (41_record_decoder.md R133 to R136)

One law for each way in which NEXT can end, from any unlatched Reading state. -/

section
namespace Sys2Proof.Proofs

open Sys2Proof.Machine

/-- The ID that NEXT reads is the field of the next 9 bits. -/
theorem recordId_toNat {r q : Reader} (hr : r.pending ≤ 7) (hq : r.fill 9 true 9 = .filled q) :
    (recordId q).toNat = r.fieldAhead 0 9 := by
  obtain ⟨hvalue, -⟩ := fill_filled_takes (by decide) hr hq
  rw [recordId, BitVec.toNat_setWidth, Nat.mod_eq_of_lt (bitReverse_toNat_lt _ 9 (by decide)), hvalue]

/-- The value that NEXT emits is the field of the next `w` bits, scaled. -/
theorem recordValue_eq_emittedValue {r q : Reader} {w : Nat} (id : AttrId) (hw : w ≤ 32) (hr : r.pending ≤ 7)
    (hq : r.fill w true w = .filled q) :
    recordValue id w q = BitVec.ofNat 32 (emittedValue id.toNat (r.fieldAhead 0 w)) := by
  obtain ⟨hvalue, -⟩ := fill_filled_takes hw hr hq
  rw [recordValue, scaleValue_eq_emittedValue, hvalue]

section Reading
variable {s : State} (hf : s.fault = false) (ha : s.ard = .reading) (hpos : s.bsr.pos ≤ s.bsr.src.length)
include hf ha hpos

/-- The source ends in the ID (R136). -/
theorem exec_next_shortId (hshort : s.bsr.bitsLeft < 9) :
    ∃ q, s.bsr.fill 9 true 9 = .exhausted q ∧ exec .next s = .next (ranDry s q 9) := by
  obtain ⟨q, hq⟩ := fill_exhausted_of_bitsLeft (rev := true) hpos hshort
  exact ⟨q, hq, exec_next_raised hf ha (readField_exhausted (by decide) (by decide) hq)⟩

section Id
variable (hr : s.bsr.pending ≤ 7) (hid : 9 ≤ s.bsr.bitsLeft)
include hr hid

/-- Steps 1 and 2 of R133: the ID is taken. -/
theorem exec_next_takesId :
    ∃ id r, id.toNat = s.bsr.fieldAhead 0 9 ∧ TakesBits 9 s.bsr r ∧
      exec .next s = .next (nextRecord id { s with bsr := r }) := by
  obtain ⟨q, hq⟩ := fill_filled_of_bitsLeft (rev := true) hpos hid
  exact ⟨recordId q, q.consume 9, recordId_toNat hr hq, (fill_filled_takes (by decide) hr hq).2,
    exec_next_value hf ha (readField_filled (by decide) (by decide) hq)⟩

/-- The terminator (R134). -/
theorem exec_next_terminator (hterm : s.bsr.fieldAhead 0 9 = 0x1FF) :
    ∃ r, TakesBits 9 s.bsr r ∧ exec .next s = .next { s with bsr := r, ard := .done, emit := false } := by
  obtain ⟨id, r, hvalue, htakes, hnext⟩ := exec_next_takesId hf ha hpos hr hid
  have hterminator : id = literals.terminatorId := BitVec.eq_of_toNat_eq (hvalue.trans hterm)
  rw [hterminator, nextRecord_terminator] at hnext
  exact ⟨r, htakes, hnext⟩

/-- An ID that is neither the terminator nor in the table (R162). -/
theorem exec_next_unknown (hterm : s.bsr.fieldAhead 0 9 ≠ 0x1FF) (hwidth : attrWidth (s.bsr.fieldAhead 0 9) = none) :
    ∃ r, TakesBits 9 s.bsr r ∧ exec .next s =
      .next (State.raiseFault { s with bsr := r } .unknownAttributeID (BitVec.ofNat 32 (s.bsr.fieldAhead 0 9))) := by
  obtain ⟨id, r, hvalue, htakes, hnext⟩ := exec_next_takesId hf ha hpos hr hid
  rw [← hvalue] at hterm hwidth
  have hunlisted := (widthOf_eq_attrWidth id).trans hwidth
  rw [nextRecord_unknown (fun heq => hterm (congrArg _ heq)) hunlisted] at hnext
  rw [← hvalue, BitVec.ofNat_toNat]
  exact ⟨r, htakes, hnext⟩

/-- Step 4 of R133: the ID is in the table. -/
theorem exec_next_knownId {w : Nat} (hwidth : attrWidth (s.bsr.fieldAhead 0 9) = some w) :
    ∃ id r, id.toNat = s.bsr.fieldAhead 0 9 ∧ (7 ≤ w ∧ w ≤ 32) ∧ TakesBits 9 s.bsr r ∧
      exec .next s = .next (nextValue id w { s with bsr := r }) := by
  obtain ⟨id, r, hvalue, htakes, hnext⟩ := exec_next_takesId hf ha hpos hr hid
  rw [← hvalue] at hwidth
  have hlisted := (widthOf_eq_attrWidth id).trans hwidth
  have hterm : id ≠ literals.terminatorId := by
    rintro rfl
    cases hwidth
  rw [nextRecord_known hterm hlisted] at hnext
  exact ⟨id, r, hvalue, legalWidth_of_widthOf hlisted, htakes, hnext⟩

/-- The source ends in the value (R136). -/
theorem exec_next_shortValue {w : Nat} (hwidth : attrWidth (s.bsr.fieldAhead 0 9) = some w)
    (hshort : s.bsr.bitsLeft < 9 + w) :
    ∃ r q, TakesBits 9 s.bsr r ∧ r.fill w true w = .exhausted q ∧
      exec .next s = .next (ranDry { s with bsr := r } q w) := by
  obtain ⟨id, r, -, ⟨h7, h32⟩, htakes, hnext⟩ := exec_next_knownId hf ha hpos hr hid hwidth
  have hleft := htakes.bitsLeft hpos hid
  obtain ⟨q, hq⟩ := fill_exhausted_of_bitsLeft (n := w) (rev := true) (htakes.pos_le hpos hid) (by omega)
  rw [nextValue_raised (readField_exhausted (s := { s with bsr := r }) (by omega) h32 hq)] at hnext
  exact ⟨r, q, htakes, hq, hnext⟩

end Id

/-- A whole record (R133). -/
theorem exec_next_emit {w : Nat} (hr : s.bsr.pending ≤ 7) (hwidth : attrWidth (s.bsr.fieldAhead 0 9) = some w)
    (henough : 9 + w ≤ s.bsr.bitsLeft) :
    ∃ r, TakesBits (9 + w) s.bsr r ∧ exec .next s =
      .next (State.emitPair { s with bsr := r } (BitVec.ofNat 9 (s.bsr.fieldAhead 0 9))
        (BitVec.ofNat 32 (emittedValue (s.bsr.fieldAhead 0 9) (s.bsr.fieldAhead 9 w)))) := by
  have hid : 9 ≤ s.bsr.bitsLeft := by omega
  obtain ⟨id, r, hvalue, ⟨h7, h32⟩, htakes, hnext⟩ := exec_next_knownId hf ha hpos hr hid hwidth
  have hleft := htakes.bitsLeft hpos hid
  have hseven := htakes.pending_le_seven hr
  obtain ⟨q, hq⟩ := fill_filled_of_bitsLeft (n := w) (rev := true) (htakes.pos_le hpos hid) (by omega)
  have hfield : r.fieldAhead 0 w = s.bsr.fieldAhead 9 w := htakes.fieldAhead 0 w
  rw [nextValue_value (readField_filled (s := { s with bsr := r }) (by omega) h32 hq)] at hnext
  refine ⟨q.consume w, htakes.trans (fill_filled_takes h32 hseven hq).2 hr, hnext.trans ?_⟩
  rw [← hvalue, ← hfield, BitVec.ofNat_toNat, BitVec.setWidth_eq, ← recordValue_eq_emittedValue id h32 hseven hq]
  rfl

end Reading

end Sys2Proof.Proofs
end

/-! ## The decode session follows the record stream (20_memory.md R56, 70_reset_and_hazards.md R192, R200) -/

section
namespace Sys2Proof.Proofs

open Sys2Proof.Machine

/-- The block stands at bit `p` of `src` between two records of a session of NEXTs, having emitted `pairs`. -/
structure DecodesFrom (src : List Byte) (p : Nat) (pairs : List Pair) (s : State) : Prop where
  fault : s.fault = false
  ard : s.ard = .reading
  outSeq : s.outSeq = pairs
  src : s.bsr.src = src
  pos_le : s.bsr.pos ≤ s.bsr.src.length
  reversed : s.bsr.pendingReversed
  position : s.bsr.position = p

section Place
variable {src : List Byte} {p : Nat} {pairs : List Pair} {s : State} (h : DecodesFrom src p pairs s)
include h

theorem DecodesFrom.bitsLeft : p + s.bsr.bitsLeft = 8 * src.length := by
  have hle := h.pos_le
  have hfed := pending_fed_of_reversed h.reversed
  simp only [← h.position, ← h.src, Reader.position, Reader.bitsLeft]
  omega

theorem DecodesFrom.fieldAhead (offset w : Nat) : s.bsr.fieldAhead offset w = fieldValue src (p + offset) w := by
  rw [fieldAhead_eq_fieldValue h.reversed, h.src, h.position]

theorem DecodesFrom.onPort (c : HostCommand) (rest : List HostCommand) : DecodesFrom src p pairs (onPort s c rest) :=
  { h with }

/-- The place after a record of `n` bits was taken and its pair emitted. -/
theorem DecodesFrom.emitPair {n : Nat} {r : Reader} (htakes : TakesBits n s.bsr r) (henough : n ≤ s.bsr.bitsLeft)
    (id : AttrId) (value : Word32) :
    DecodesFrom src (p + n) (pairs ++ [⟨id, value⟩]) (State.emitPair { s with bsr := r } id value) where
  fault := h.fault
  ard := h.ard
  outSeq := congrArg (· ++ _) h.outSeq
  src := htakes.src.trans h.src
  pos_le := htakes.pos_le h.pos_le henough
  reversed := htakes.pendingReversed h.reversed
  position := by
    obtain ⟨-, hmoved⟩ := htakes.position (pending_fed_of_reversed h.reversed)
    exact hmoved.trans (congrArg (· + n) h.position)

end Place

/-- INIT puts the block at bit 0 of the presented bytes (R102). -/
theorem decodesFrom_beginSession (s : State) (bytes : List Byte) : DecodesFrom bytes 0 [] (s.beginSession bytes) where
  fault := rfl
  ard := rfl
  outSeq := rfl
  src := rfl
  pos_le := Nat.zero_le _
  reversed := pendingReversed_fresh bytes
  position := rfl

/-- Where no command waits, the host's command is the one performed. -/
theorem perform_of_idle {s : State} {c : HostCommand} {i : Instr} (hc : s.commands = []) (hw : decode c.word = .ok i) :
    s.perform c = exec i (onPort s c []) :=
  step_legal (s := s.issue c) (rest := []) (by rw [State.issue_commands, hc]; rfl) hw

theorem perform_next {s : State} (hc : s.commands = []) :
    s.perform (commandOf .next 0 []) = exec .next (onPort s (commandOf .next 0 []) []) :=
  perform_of_idle hc (by decide)

theorem perform_init {s : State} (hc : s.commands = []) (bytes : List Byte) :
    s.perform (commandOf .init 0 bytes) =
      .next (State.beginSession (onPort s (commandOf .init 0 bytes) []) bytes) :=
  (perform_of_idle hc (by decide : decode (encode .init) = .ok .init)).trans (exec_init _)

/-! ### One turn of the host's loop -/

section Turn
variable {s t : State} (ht : s.perform (commandOf .next 0 []) = .next t) (fuel : Nat) (taken : List Pair)
include ht

theorem decodeLoop_fault (hf : t.fault = true) :
    decodeLoop (fuel + 1) s taken = (taken, .failure t.cause.code t.faultInfo) := by
  simp only [decodeLoop, ht, status_fault, status_cause, hf, if_true]

theorem decodeLoop_done (hf : t.fault = false) (ha : t.ard = .done) :
    decodeLoop (fuel + 1) s taken = (taken, .success t.outSeq) := by
  simp only [decodeLoop, ht, status_fault, status_done, hf, ha, ArdState.doneBit, Bool.false_eq_true, if_false, if_true]

theorem decodeLoop_emit (hf : t.fault = false) (ha : t.ard = .reading) (he : t.emit = true) :
    decodeLoop (fuel + 1) s taken = decodeLoop fuel t (taken ++ [⟨t.outId, t.outValue⟩]) := by
  simp only [decodeLoop, ht, status_fault, status_done, status_emit, hf, ha, he, ArdState.doneBit, Bool.false_eq_true,
    if_false, if_true]

end Turn

/-! ### One record of the reference decoder -/

section Record
variable {src : List Byte} {p : Nat} (fuel : Nat) (pairs : List Pair)

theorem recordStream_shortId (h : 8 * src.length < p + 9) :
    recordStream src (fuel + 1) p pairs = (pairs, .failure 1 9) := by
  simp only [recordStream, if_pos h]

variable (hid : ¬ 8 * src.length < p + 9)
include hid

theorem recordStream_terminator (hterm : fieldValue src p 9 = 0x1FF) :
    recordStream src (fuel + 1) p pairs = (pairs, .success pairs) := by
  simp only [recordStream, if_neg hid, if_pos hterm]

variable (hterm : fieldValue src p 9 ≠ 0x1FF)
include hterm

theorem recordStream_unknown (hwidth : attrWidth (fieldValue src p 9) = none) :
    recordStream src (fuel + 1) p pairs = (pairs, .failure 2 (BitVec.ofNat 32 (fieldValue src p 9))) := by
  simp only [recordStream, if_neg hid, if_neg hterm, hwidth]

theorem recordStream_shortValue {w : Nat} (hwidth : attrWidth (fieldValue src p 9) = some w)
    (hshort : 8 * src.length < p + 9 + w) :
    recordStream src (fuel + 1) p pairs = (pairs, .failure 1 (BitVec.ofNat 32 w)) := by
  simp only [recordStream, if_neg hid, if_neg hterm, hwidth, if_pos hshort]

theorem recordStream_emit {w : Nat} (hwidth : attrWidth (fieldValue src p 9) = some w)
    (henough : ¬ 8 * src.length < p + 9 + w) :
    recordStream src (fuel + 1) p pairs =
      recordStream src fuel (p + 9 + w) (pairs ++ [⟨BitVec.ofNat 9 (fieldValue src p 9),
        BitVec.ofNat 32 (emittedValue (fieldValue src p 9) (fieldValue src (p + 9) w))⟩]) := by
  simp only [recordStream, if_neg hid, if_neg hterm, hwidth, if_neg henough]

end Record

/-- From every place between two records, the host's loop takes the pairs and sees the end that the record stream has:
each NEXT is one record. -/
theorem decodeLoop_eq_recordStream {src : List Byte} (fuel : Nat) {p : Nat} {pairs : List Pair} {s : State}
    (h : DecodesFrom src p pairs s) (hc : s.commands = []) :
    decodeLoop fuel s pairs = recordStream src fuel p pairs := by
  induction fuel generalizing p pairs s with
  | zero => rfl
  | succ fuel ih =>
    have hport := h.onPort (commandOf .next 0 []) []
    have hperform := perform_next hc
    have hleft := hport.bitsLeft
    have hseven := pending_le_seven_of_reversed hport.reversed
    have hidField := hport.fieldAhead 0 9
    rw [Nat.add_zero] at hidField
    set u := onPort s (commandOf .next 0 []) []
    by_cases hid : 8 * src.length < p + 9
    · obtain ⟨q, -, hnext⟩ := exec_next_shortId hport.fault hport.ard hport.pos_le (by omega)
      rw [recordStream_shortId _ _ hid, decodeLoop_fault (hperform.trans hnext) _ _ rfl]
      rfl
    have hidBits : 9 ≤ u.bsr.bitsLeft := by omega
    by_cases hterm : fieldValue src p 9 = 0x1FF
    · obtain ⟨r, -, hnext⟩ := exec_next_terminator hport.fault hport.ard hport.pos_le hseven hidBits
        (hidField.trans hterm)
      rw [recordStream_terminator _ _ hid hterm, decodeLoop_done (hperform.trans hnext) _ _ hport.fault rfl]
      exact congrArg (fun pairs' => (pairs, SessionEnd.success pairs')) hport.outSeq
    cases hwidth : attrWidth (fieldValue src p 9) with
    | none =>
      obtain ⟨r, -, hnext⟩ := exec_next_unknown hport.fault hport.ard hport.pos_le hseven hidBits
        (hidField ▸ hterm) (hidField ▸ hwidth)
      rw [recordStream_unknown _ _ hid hterm hwidth, decodeLoop_fault (hperform.trans hnext) _ _ rfl, ← hidField]
      rfl
    | some w =>
      by_cases hvalue : 8 * src.length < p + 9 + w
      · obtain ⟨r, q, -, -, hnext⟩ := exec_next_shortValue hport.fault hport.ard hport.pos_le hseven hidBits
          (hidField ▸ hwidth) (by omega)
        rw [recordStream_shortValue _ _ hid hterm hwidth hvalue, decodeLoop_fault (hperform.trans hnext) _ _ rfl]
        rfl
      · have henough : 9 + w ≤ u.bsr.bitsLeft := by omega
        obtain ⟨r, htakes, hnext⟩ := exec_next_emit hport.fault hport.ard hport.pos_le hseven (hidField ▸ hwidth)
          henough
        have hafter := hport.emitPair htakes henough
        rw [hidField, hport.fieldAhead] at hnext
        rw [recordStream_emit _ _ hid hterm hwidth hvalue, Nat.add_assoc, ← ih (hafter _ _) rfl,
          decodeLoop_emit (hperform.trans hnext) _ _ hport.fault hport.ard rfl]
        rfl

/-- The record stream ends within `fuel` records where fewer than `16 * fuel` bits are left: every record has at least
16 (R139). -/
theorem recordStream_ends {src : List Byte} (fuel : Nat) {p : Nat} (pairs : List Pair) (hp : p ≤ 8 * src.length)
    (hfuel : 8 * src.length < p + 16 * fuel) : (recordStream src fuel p pairs).2 ≠ .notEnded := by
  induction fuel generalizing p pairs with
  | zero => omega
  | succ fuel ih =>
    by_cases hid : 8 * src.length < p + 9
    · rw [recordStream_shortId _ _ hid]
      exact nofun
    by_cases hterm : fieldValue src p 9 = 0x1FF
    · rw [recordStream_terminator _ _ hid hterm]
      exact nofun
    cases hwidth : attrWidth (fieldValue src p 9) with
    | none =>
      rw [recordStream_unknown _ _ hid hterm hwidth]
      exact nofun
    | some w =>
      by_cases hvalue : 8 * src.length < p + 9 + w
      · rw [recordStream_shortValue _ _ hid hterm hwidth hvalue]
        exact nofun
      · have hseven := seven_le_of_attrWidth hwidth
        rw [recordStream_emit _ _ hid hterm hwidth hvalue]
        exact ih _ (by omega) (by omega)

theorem decodeSession_eq_recordStream {s : State} (hc : s.commands = []) (fuel : Nat) (bytes : List Byte) :
    decodeSession fuel s bytes = recordStream bytes fuel 0 [] := by
  simp only [decodeSession, perform_init hc]
  exact decodeLoop_eq_recordStream fuel (decodesFrom_beginSession _ bytes) rfl

/-- Settles O51: the session is the record stream, and `floor(L / 2) + 1` records are more than `L` bytes hold. -/
theorem sessionDecodesRecordStream : Obligations.SessionDecodesRecordStream := by
  intro s bytes hc
  rw [decodeSession_eq_recordStream hc]
  exact ⟨rfl, recordStream_ends _ [] (Nat.zero_le _) (by simp only [sessionBound]; omega)⟩

end Sys2Proof.Proofs
end

/-! ## The fields of a command word (30_encoding.md R70) -/

section
namespace Sys2Proof.Proofs

theorem opField_getLsbD (w : CommandWord) {i : Nat} (hi : i < 4) : (opField w).getLsbD i = w.getLsbD (12 + i) := by
  rw [opField, BitVec.getLsbD_extractLsb', decide_eq_true hi, Bool.true_and]

theorem rsvField_getLsbD (w : CommandWord) {i : Nat} (hi : i < 5) : (rsvField w).getLsbD i = w.getLsbD (7 + i) := by
  rw [rsvField, BitVec.getLsbD_extractLsb', decide_eq_true hi, Bool.true_and]

theorem nField_getLsbD (w : CommandWord) {i : Nat} (hi : i < 6) : (nField w).getLsbD i = w.getLsbD i := by
  rw [nField, BitVec.getLsbD_extractLsb', decide_eq_true hi, Bool.true_and, Nat.zero_add]

/-- The four fields of a word are all of it. -/
theorem word_eq_iff_fields (w w' : CommandWord) :
    w = w' ↔ opField w = opField w' ∧ rsvField w = rsvField w' ∧ rField w = rField w' ∧ nField w = nField w' := by
  refine ⟨fun h => h ▸ ⟨rfl, rfl, rfl, rfl⟩, ?_⟩
  rintro ⟨hop, hrsv, hr, hn⟩
  refine BitVec.eq_of_getLsbD_eq fun i hi => ?_
  rcases (by omega : i < 6 ∨ i = 6 ∨ 7 ≤ i ∧ i < 12 ∨ 12 ≤ i) with h6 | rfl | ⟨h7, h12⟩ | h12
  · rw [← nField_getLsbD w h6, hn, nField_getLsbD w' h6]
  · exact hr
  · obtain ⟨j, rfl⟩ := Nat.exists_eq_add_of_le h7
    rw [← rsvField_getLsbD w (by omega), hrsv, rsvField_getLsbD w' (by omega)]
  · obtain ⟨j, rfl⟩ := Nat.exists_eq_add_of_le h12
    rw [← opField_getLsbD w (by omega), hop, opField_getLsbD w' (by omega)]

/-- A mask and match compare each field on its own. -/
theorem masked_eq_iff_fields (w mask value : CommandWord) :
    w &&& mask = value ↔
      opField w &&& opField mask = opField value ∧ rsvField w &&& rsvField mask = rsvField value ∧
        (rField w && rField mask) = rField value ∧ nField w &&& nField mask = nField value := by
  rw [word_eq_iff_fields]
  simp only [opField, rsvField, rField, nField, BitVec.extractLsb'_and, BitVec.getLsbD_and]

end Sys2Proof.Proofs
end

/-! ## Which word carries which command (30_encoding.md R70 to R73) -/

section
namespace Sys2Proof.Proofs

open Sys2Proof.Machine Sys2Proof.Laws

/-- The fields of `w` are those of the command `i`, its width uncut. -/
structure Carries (w : CommandWord) (i : Instr) : Prop where
  op : opField w = i.opcode
  rsv : rsvField w = 0
  reverse : rField w = i.reverseBit
  width : (nField w).toNat = i.width

theorem wellFormed_iff (i : Instr) : i.wellFormed = true ↔ i.width < 64 := by
  cases i with
  | read n rev => exact decide_eq_true_iff
  | bitrev n => exact decide_eq_true_iff
  | stat | init | next => exact iff_of_true rfl (by decide : 0 < 64)

theorem encodeFields (i : Instr) : EncodeFields.Statement i := by
  cases i with
  | stat => exact EncodeFields.stat
  | init => exact EncodeFields.init
  | read n rev => exact EncodeFields.read n rev
  | bitrev n => exact EncodeFields.bitrev n
  | next => exact EncodeFields.next

/-- A word carries exactly the well-formed command of which it is the encoding. -/
theorem carries_iff_encode (w : CommandWord) (i : Instr) : Carries w i ↔ i.wellFormed = true ∧ encode i = w := by
  obtain ⟨hop, hrsv, hr, hn⟩ := encodeFields i
  constructor
  · rintro ⟨hop', hrsv', hr', hn'⟩
    have hcut : nField w = BitVec.ofNat 6 i.width := by rw [← hn', BitVec.ofNat_toNat, BitVec.setWidth_eq]
    exact ⟨(wellFormed_iff i).2 (hn' ▸ (nField w).isLt),
      (word_eq_iff_fields _ _).2 ⟨hop.trans hop'.symm, hrsv.trans hrsv'.symm, hr.trans hr'.symm, hn.trans hcut.symm⟩⟩
  · rintro ⟨hwf, rfl⟩
    refine ⟨hop, hrsv, hr, ?_⟩
    rw [hn, BitVec.toNat_ofNat]
    exact Nat.mod_eq_of_lt ((wellFormed_iff i).1 hwf)

/-- The fields tell commands apart. -/
theorem instr_eq_of_fields : ∀ {i j : Instr}, i.opcode = j.opcode → i.reverseBit = j.reverseBit → i.width = j.width →
    i = j
  | .stat, .stat, _, _, _ => rfl
  | .init, .init, _, _, _ => rfl
  | .read _ _, .read _ _, _, rfl, rfl => rfl
  | .bitrev _, .bitrev _, _, _, rfl => rfl
  | .next, .next, _, _, _ => rfl

/-- A word carries at most one command. -/
theorem carries_unique {w : CommandWord} {i j : Instr} (hi : Carries w i) (hj : Carries w j) : i = j :=
  instr_eq_of_fields (hi.op.symm.trans hj.op) (hi.reverse.symm.trans hj.reverse) (hi.width.symm.trans hj.width)

/-! ### The rows of the opcode map (R72) -/

section Rows
variable (w : CommandWord)

/-- A row that fixes all 16 bits. -/
theorem fullRow_iff {value : CommandWord} {i : Instr} (hmatch : encode i = value) (hwf : i.wellFormed = true) :
    w &&& 0xFFFF = value ↔ Carries w i := by
  rw [carries_iff_encode, hmatch, and_iff_right hwf, eq_comm (a := value)]
  exact iff_of_eq (congrArg (· = value) BitVec.and_allOnes)

theorem statRow_iff : w &&& 0xFFFF = 0x0000 ↔ Carries w .stat := fullRow_iff w (i := .stat) (by decide) rfl
theorem initRow_iff : w &&& 0xFFFF = 0x1000 ↔ Carries w .init := fullRow_iff w (i := .init) (by decide) rfl
theorem nextRow_iff : w &&& 0xFFFF = 0x4000 ↔ Carries w .next := fullRow_iff w (i := .next) (by decide) rfl

/-- The row of READ leaves `R` and `N` free. -/
theorem readRow_iff : w &&& 0xFF80 = 0x2000 ↔ opField w = 2 ∧ rsvField w = 0 := by
  have hfields : w &&& 0xFF80 = 0x2000 ↔ opField w &&& BitVec.allOnes 4 = 2 ∧ rsvField w &&& BitVec.allOnes 5 = 0 ∧
      (rField w && false) = false ∧ nField w &&& 0#6 = 0#6 := masked_eq_iff_fields w 0xFF80 0x2000
  simpa only [BitVec.and_allOnes, BitVec.and_zero, Bool.and_false, and_true] using hfields

/-- The row of BITREV leaves `N` free. -/
theorem bitrevRow_iff : w &&& 0xFFC0 = 0x3000 ↔ opField w = 3 ∧ rsvField w = 0 ∧ rField w = false := by
  have hfields : w &&& 0xFFC0 = 0x3000 ↔ opField w &&& BitVec.allOnes 4 = 3 ∧ rsvField w &&& BitVec.allOnes 5 = 0 ∧
      (rField w && true) = false ∧ nField w &&& 0#6 = 0#6 := masked_eq_iff_fields w 0xFFC0 0x3000
  simpa only [BitVec.and_allOnes, BitVec.and_zero, Bool.and_true, and_true] using hfields

theorem carries_read_iff (n : Nat) (rev : Bool) :
    Carries w (.read n rev) ↔ w &&& 0xFF80 = 0x2000 ∧ n = (nField w).toNat ∧ rev = rField w := by
  rw [readRow_iff]
  exact ⟨fun ⟨hop, hrsv, hr, hn⟩ => ⟨⟨hop, hrsv⟩, hn.symm, hr.symm⟩,
    fun ⟨⟨hop, hrsv⟩, hn, hr⟩ => ⟨hop, hrsv, hr.symm, hn.symm⟩⟩

theorem carries_bitrev_iff (n : Nat) :
    Carries w (.bitrev n) ↔ w &&& 0xFFC0 = 0x3000 ∧ n = (nField w).toNat := by
  rw [bitrevRow_iff]
  exact ⟨fun ⟨hop, hrsv, hr, hn⟩ => ⟨⟨hop, hrsv, hr⟩, hn.symm⟩, fun ⟨⟨hop, hrsv, hr⟩, hn⟩ => ⟨hop, hrsv, hr, hn.symm⟩⟩

/-- A word carries no command exactly where it matches no row. -/
theorem carries_none_iff :
    (∀ i, ¬ Carries w i) ↔
      w &&& 0xFFFF ≠ 0x0000 ∧ w &&& 0xFFFF ≠ 0x1000 ∧ w &&& 0xFF80 ≠ 0x2000 ∧ w &&& 0xFFC0 ≠ 0x3000 ∧
        w &&& 0xFFFF ≠ 0x4000 := by
  constructor
  · intro h
    exact ⟨fun hrow => h _ ((statRow_iff w).1 hrow), fun hrow => h _ ((initRow_iff w).1 hrow),
      fun hrow => h _ ((carries_read_iff w _ _).2 ⟨hrow, rfl, rfl⟩),
      fun hrow => h _ ((carries_bitrev_iff w _).2 ⟨hrow, rfl⟩), fun hrow => h _ ((nextRow_iff w).1 hrow)⟩
  · rintro ⟨hstat, hinit, hread, hbitrev, hnext⟩ i hi
    cases i with
    | stat => exact hstat ((statRow_iff w).2 hi)
    | init => exact hinit ((initRow_iff w).2 hi)
    | read n rev => exact hread ((carries_read_iff w n rev).1 hi).1
    | bitrev n => exact hbitrev ((carries_bitrev_iff w n).1 hi).1
    | next => exact hnext ((nextRow_iff w).2 hi)

end Rows

/-- The decoder answers the command that the word carries, or none. -/
theorem decode_cases (w : CommandWord) :
    (∃ i, decode w = .ok i ∧ Carries w i) ∨ (decode w = .error (illegalReason w) ∧ ∀ i, ¬ Carries w i) := by
  rw [decode]
  by_cases hstat : w &&& 0xFFFF = 0x0000
  · exact .inl ⟨_, if_pos hstat, (statRow_iff w).1 hstat⟩
  rw [if_neg hstat]
  by_cases hinit : w &&& 0xFFFF = 0x1000
  · exact .inl ⟨_, if_pos hinit, (initRow_iff w).1 hinit⟩
  rw [if_neg hinit]
  by_cases hread : w &&& 0xFF80 = 0x2000
  · exact .inl ⟨_, if_pos hread, (carries_read_iff w _ _).2 ⟨hread, rfl, rfl⟩⟩
  rw [if_neg hread]
  by_cases hbitrev : w &&& 0xFFC0 = 0x3000
  · exact .inl ⟨_, if_pos hbitrev, (carries_bitrev_iff w _).2 ⟨hbitrev, rfl⟩⟩
  rw [if_neg hbitrev]
  by_cases hnext : w &&& 0xFFFF = 0x4000
  · exact .inl ⟨_, if_pos hnext, (nextRow_iff w).1 hnext⟩
  · exact .inr ⟨if_neg hnext, (carries_none_iff w).2 ⟨hstat, hinit, hread, hbitrev, hnext⟩⟩

theorem decode_ok_iff (w : CommandWord) (i : Instr) : decode w = .ok i ↔ Carries w i := by
  rcases decode_cases w with ⟨j, hj, hcarries⟩ | ⟨herror, hnone⟩
  · rw [hj, Except.ok.injEq]
    exact ⟨fun h => h ▸ hcarries, carries_unique hcarries⟩
  · rw [herror]
    exact iff_of_false nofun (hnone i)

theorem decode_error_iff (w : CommandWord) : (∃ e, decode w = .error e) ↔ ∀ i, ¬ Carries w i := by
  rcases decode_cases w with ⟨j, hj, hcarries⟩ | ⟨herror, hnone⟩
  · rw [hj]
    exact iff_of_false nofun fun h => h j hcarries
  · exact iff_of_true ⟨_, herror⟩ hnone

/-- Settles O1: an encoding carries its command. -/
theorem decodeInvertsEncode : Obligations.DecodeInvertsEncode := by
  intro i hwf
  exact (decode_ok_iff _ i).2 ((carries_iff_encode _ i).2 ⟨hwf, rfl⟩)

/-- Settles O2: the converse of the round trip, since a decoded word carries its command. -/
theorem encodeInvertsDecode : Obligations.EncodeInvertsDecode := by
  intro w i h
  exact (carries_iff_encode w i).1 ((decode_ok_iff w i).1 h)

/-- Settles O3: each row by the fields it fixes. -/
theorem decodeIsTheOpcodeMap : Obligations.DecodeIsTheOpcodeMap := by
  intro w
  exact ⟨(decode_ok_iff w .stat).trans (statRow_iff w).symm, (decode_ok_iff w .init).trans (initRow_iff w).symm,
    fun n rev => (decode_ok_iff w _).trans (carries_read_iff w n rev),
    fun n => (decode_ok_iff w _).trans (carries_bitrev_iff w n), (decode_ok_iff w .next).trans (nextRow_iff w).symm,
    (decode_error_iff w).trans (carries_none_iff w)⟩

theorem opcode_lt_five (i : Instr) : i.opcode.toNat < 5 := by
  cases i with
  | stat | init | read | bitrev | next => exact Nat.le_of_ble_eq_true rfl

/-- `R` is set in no command but READ (R70). -/
theorem reverseBit_eq_false {i : Instr} (hread : i.opcode ≠ 2) : i.reverseBit = false := by
  cases i with
  | read => exact absurd rfl hread
  | stat | init | bitrev | next => rfl

/-- `N` is nonzero in no command but READ and BITREV (R70). -/
theorem width_eq_zero {i : Instr} (hread : i.opcode ≠ 2) (hbitrev : i.opcode ≠ 3) : i.width = 0 := by
  cases i with
  | read => exact absurd rfl hread
  | bitrev => exact absurd rfl hbitrev
  | stat | init | next => rfl

/-- The clauses of R74, field by field. -/
theorem carries_none_iff_fields (w : CommandWord) :
    (∀ i, ¬ Carries w i) ↔
      5 ≤ (opField w).toNat ∨ rsvField w ≠ 0 ∨ (rField w = true ∧ opField w ≠ 2) ∨
        (nField w ≠ 0 ∧ opField w ≠ 2 ∧ opField w ≠ 3) := by
  constructor
  · intro h
    by_contra! hlegal
    obtain ⟨hop, hrsv, hr, hn⟩ := hlegal
    have hlisted : ∀ op : BitVec 4, op.toNat < 5 → op = 0 ∨ op = 1 ∨ op = 2 ∨ op = 3 ∨ op = 4 := by decide
    have hclear (hne : opField w ≠ 2) : rField w = false := Bool.eq_false_iff.2 fun h => hne (hr h)
    have hzero (h2 : opField w ≠ 2) (h3 : opField w ≠ 3) : (nField w).toNat = 0 :=
      congrArg _ (by_contra fun hne => h3 (hn hne h2))
    rcases hlisted _ hop with hop | hop | hop | hop | hop
    · exact h .stat ⟨hop, hrsv, hclear (by simp [hop]), hzero (by simp [hop]) (by simp [hop])⟩
    · exact h .init ⟨hop, hrsv, hclear (by simp [hop]), hzero (by simp [hop]) (by simp [hop])⟩
    · exact h (.read _ _) ⟨hop, hrsv, rfl, rfl⟩
    · exact h (.bitrev _) ⟨hop, hrsv, hclear (by simp [hop]), rfl⟩
    · exact h .next ⟨hop, hrsv, hclear (by simp [hop]), hzero (by simp [hop]) (by simp [hop])⟩
  · rintro (hop | hrsv | ⟨hset, hread⟩ | ⟨hn, hread, hbitrev⟩) i hi
    · rw [hi.op] at hop
      exact absurd (opcode_lt_five i) hop.not_gt
    · exact hrsv hi.rsv
    · rw [hi.op] at hread
      exact absurd (hset.symm.trans (hi.reverse.trans (reverseBit_eq_false hread))) (by decide)
    · rw [hi.op] at hread hbitrev
      exact hn (BitVec.eq_of_toNat_eq (hi.width.trans (width_eq_zero hread hbitrev)))

/-- Settles O4: no command is carried under the clauses of R74, and a step with the latch clear raises (R164). -/
theorem illegalWordRaises : Obligations.IllegalWordRaises := by
  refine ⟨fun w => (decode_error_iff w).trans (carries_none_iff_fields w), ?_⟩
  intro s c rest e hc hw hf
  have hraise := illegalWord_clear (s := onPort s c rest) hf c.word
  exact ⟨_, (step_illegal hc hw).trans (congrArg _ hraise), rfl⟩

/-- Settles O5: the seven commands are encodings, and the illegal words meet R74 one clause each. -/
theorem exampleWordsDecode : Obligations.ExampleWordsDecode :=
  ⟨decodeInvertsEncode .stat rfl, decodeInvertsEncode .init rfl, decodeInvertsEncode (.read 8 true) rfl,
    decodeInvertsEncode (.read 9 true) rfl, decodeInvertsEncode (.read 32 false) rfl,
    decodeInvertsEncode (.bitrev 9) rfl, decodeInvertsEncode .next rfl, by decide, by decide, by decide, by decide⟩

end Sys2Proof.Proofs
end

/-! ## The words of assembly lines (30_encoding.md R76) -/

section
namespace Sys2Proof.Proofs

open Sys2Proof.Machine

/-- A width side by side with the upper bits of a word is that width set in the word's low 6 bits. -/
theorem append_width (upper : BitVec 10) {n : Nat} (hn : n < 64) :
    upper ++ BitVec.ofNat 6 n = (upper ++ 0#6) ||| BitVec.ofNat 16 n := by
  have hfits : (BitVec.ofNat 6 n).setWidth 16 = BitVec.ofNat 16 n :=
    BitVec.setWidth_ofNat_of_le_of_lt (by decide) hn
  rw [← hfits, BitVec.append_def, BitVec.append_def, BitVec.setWidth'_eq, BitVec.setWidth'_eq, BitVec.setWidth_zero,
    BitVec.or_zero]

/-- The word of a well-formed command is its fixed bits with the width set in the low 6. -/
theorem encode_eq_or_width {i : Instr} {fixed : CommandWord} (hwf : i.wellFormed = true)
    (hfixed : i.opcode ++ (0 : BitVec 5) ++ BitVec.ofBool i.reverseBit ++ 0#6 = fixed) :
    encode i = fixed ||| BitVec.ofNat 16 i.width :=
  hfixed ▸ append_width _ ((wellFormed_iff i).1 hwf)

/-- Settles O6: a line's width is checked, and is then the low bits of its word. -/
theorem assemblerWords : Obligations.AssemblerWords := by
  refine ⟨rfl, fun src => rfl, rfl, fun n hn => ?_⟩
  have hwidth : widthEncodable n = true := decide_eq_true hn
  have hread : encode (.read n false) = 0x2000 ||| BitVec.ofNat 16 n :=
    encode_eq_or_width hwidth (by simp [Instr.opcode, Instr.reverseBit])
  have hreadRev : encode (.read n true) = 0x2040 ||| BitVec.ofNat 16 n :=
    encode_eq_or_width hwidth (by simp [Instr.opcode, Instr.reverseBit])
  have hbitrev : encode (.bitrev n) = 0x3000 ||| BitVec.ofNat 16 n :=
    encode_eq_or_width hwidth (by simp [Instr.opcode, Instr.reverseBit])
  simp only [AsmLine.assemble, commandOf, if_pos hwidth, hread, hreadRev, hbitrev, and_self, implies_true]

end Sys2Proof.Proofs
end

/-! ## The pseudo-instruction `FIELD` (30_encoding.md R77) -/

section
namespace Sys2Proof.Proofs

open Sys2Proof.Machine

/-- `FIELD n` is READ.REV `n` and then BITREV `n` of its result. -/
theorem performField_eq_exec {s u : State} {n : Nat} (hc : s.commands = []) (hn : n < 64)
    (hread : exec (.read n true) (onPort s (commandOf (.read n true) 0 []) []) = .next u) (hu : u.commands = []) :
    s.performField n = exec (.bitrev n) (onPort u (commandOf (.bitrev n) u.result []) []) := by
  have hreadWord := decodeInvertsEncode (.read n true) ((wellFormed_iff _).2 hn)
  have hbitrevWord := decodeInvertsEncode (.bitrev n) ((wellFormed_iff _).2 hn)
  rw [performField_encodable hn ((perform_of_idle hc hreadWord).trans hread)]
  exact perform_of_idle hu hbitrevWord

section Unlatched
variable {s : State} {n : Nat} (hc : s.commands = []) (hf : s.fault = false) (h1 : 1 ≤ n) (h32 : n ≤ 32)
include hc hf h1 h32

/-- `FIELD` where the feed loop fills the reader. -/
theorem performField_filled {q : Reader} (hq : s.bsr.fill n true n = .filled q) :
    ∃ t, s.performField n = .next t ∧ t.fault = false ∧ t.result = bitReverse (q.field n) n ∧
      t.bsr = q.consume n := by
  have hread := exec_read_value (s := onPort s (commandOf (.read n true) 0 []) []) hf (readField_filled h1 h32 hq)
  rw [performField_eq_exec hc (by omega) hread rfl]
  exact ⟨_, exec_bitrev_legal (by exact hf) ((legalWidth_iff n).2 ⟨h1, h32⟩), hf, rfl, rfl⟩

/-- `FIELD` where the feed loop runs out of bytes: the BITREV is refused behind the latch (R166). -/
theorem performField_exhausted {q : Reader} (hq : s.bsr.fill n true n = .exhausted q) :
    ∃ t, s.performField n = .next t ∧ t.fault = true ∧ t.cause = .endOfStream ∧ t.faultInfo = widthInfo n ∧
      t.result = s.result := by
  have hread := exec_read_raised (s := onPort s (commandOf (.read n true) 0 []) []) hf (readField_exhausted h1 h32 hq)
  rw [performField_eq_exec hc (by omega) hread rfl]
  exact ⟨_, exec_latched rfl nofun nofun, rfl, rfl, rfl, rfl⟩

end Unlatched

/-- Settles O23: READ.REV takes the bits ahead first to last, BITREV turns them around; a dry reader latches the fault
that refuses the BITREV. -/
theorem fieldReadsLsbFirst : Obligations.FieldReadsLsbFirst := by
  intro s n hc hf h1 h32 hr hpos
  refine ⟨fun henough => ?_, fun hshort => ?_⟩
  · obtain ⟨q, hq⟩ := fill_filled_of_bitsLeft (rev := true) hpos henough
    obtain ⟨hvalue, htakes⟩ := fill_filled_takes h32 hr hq
    obtain ⟨t, ht, hclear, hresult, hreader⟩ := performField_filled hc hf h1 h32 hq
    rw [← hresult] at hvalue
    rw [← hreader] at htakes
    exact ⟨t, ht, hclear, hvalue, htakes.bitAhead⟩
  · obtain ⟨q, hq⟩ := fill_exhausted_of_bitsLeft (rev := true) hpos hshort
    exact performField_exhausted hc hf h1 h32 hq

end Sys2Proof.Proofs
end

/-! ## STAT and the STATUS view (40_bitstream_reader.md R101, 10_state.md R32) -/

section
namespace Sys2Proof.Proofs

open Sys2Proof.Machine

/-- A mask of ones but for one field clears that field. -/
theorem and_mask_clears_field {m : Nat} (upper : BitVec m) (bit fault done : BitVec 1) :
    (upper ++ bit ++ fault ++ done) &&& (BitVec.allOnes m ++ 0#1 ++ BitVec.allOnes 1 ++ BitVec.allOnes 1) =
      upper ++ 0#1 ++ fault ++ done := by
  simp only [BitVec.and_append, BitVec.and_allOnes, BitVec.and_zero]

/-- Clearing `EMIT` takes the EMIT bit from STATUS and no other: `0xFB` is the mask that is 0 in that field alone. -/
theorem status_refuse (s : State) : s.refuse.status = s.status &&& 0xFB :=
  (and_mask_clears_field (0#1 ++ s.cause.code ++ 0#1) (BitVec.ofBool s.emit) (BitVec.ofBool s.fault)
    (BitVec.ofBool s.ard.doneBit)).symm

/-- Settles O12: STAT is `State.refuse`, whose STATUS is `status_refuse`. -/
theorem statClearsEmitOnly : Obligations.StatClearsEmitOnly :=
  fun s => ⟨s.refuse, exec_stat s, rfl, status_refuse s⟩

end Sys2Proof.Proofs
end

/-! ## BITREV (40_bitstream_reader.md R111, R112) -/

section
namespace Sys2Proof.Proofs

open Sys2Proof.Machine

/-- Settles O14: the value is `bitReverse` of `DIN`, and `bitReverse_getLsbD` gives its bits. -/
theorem bitrevReversesOperand : Obligations.BitrevReversesOperand :=
  fun s n hf h1 h32 =>
    ⟨bitReverse s.din n, exec_bitrev_legal hf ((legalWidth_iff n).2 ⟨h1, h32⟩), fun i => bitReverse_getLsbD s.din i h32⟩

/-- Settles O18: below the width, `i ↦ n - 1 - i` undoes itself; from the width on, both sides are 0. -/
theorem bitReverseInvolution : Obligations.BitReverseInvolution := by
  intro x n _ h32 hx
  refine BitVec.eq_of_getLsbD_eq fun i hi32 => ?_
  rcases Nat.lt_or_ge i n with hi | hi
  · rw [bitReverse_getLsbD_of_lt _ h32 hi, bitReverse_getLsbD_of_lt _ h32 (by omega),
      show n - 1 - (n - 1 - i) = i by omega]
  · obtain ⟨k, rfl⟩ := Nat.exists_eq_add_of_le hi
    rw [bitReverse_getLsbD_of_ge _ h32 hi, (BitVec.toNat_lt_iff_getLsbD_eq_false n (by omega)).1 hx k]

end Sys2Proof.Proofs
end

/-! ## READ (40_bitstream_reader.md R103 to R105, R110) -/

section
namespace Sys2Proof.Proofs

open Sys2Proof.Machine

/-- Where the bits left are too few for a width, the source is too short for the feeds it needs. -/
theorem length_lt_of_bitsLeft_lt {r : Reader} {n : Nat} (hpos : r.pos ≤ r.src.length) (hshort : r.bitsLeft < n) :
    r.src.length < r.pos + feedsNeeded n r.pending := by
  simp only [Reader.bitsLeft, feedsNeeded] at *
  omega

section Unlatched
variable {s : State} {n : Nat} (hf : s.fault = false) (h1 : 1 ≤ n) (h32 : n ≤ 32)
include hf h1 h32

/-- READ where the feed loop fills the reader. -/
theorem exec_read_filled {rev : Bool} {q : Reader} (hq : s.bsr.fill n rev n = .filled q) :
    exec (.read n rev) s = .next { tookField s q n with result := q.field n, emit := false } :=
  exec_read_value hf (readField_filled h1 h32 hq)

/-- READ where the feed loop runs out of bytes. -/
theorem exec_read_exhausted {rev : Bool} {q : Reader} (hq : s.bsr.fill n rev n = .exhausted q) :
    exec (.read n rev) s = .next (ranDry s q n) :=
  exec_read_raised hf (readField_exhausted h1 h32 hq)

/-- READ where fewer than `n` bits are left: the source is spent (R110). -/
theorem exec_read_spent (rev : Bool) (hpos : s.bsr.pos ≤ s.bsr.src.length) (hshort : s.bsr.bitsLeft < n) :
    exec (.read n rev) s = .next (ranDry s { s.bsr with pos := s.bsr.src.length } n) :=
  exec_read_raised hf (readField_short h1 h32 rev hpos (length_lt_of_bitsLeft_lt hpos hshort))

end Unlatched

/-- Settles O19: where the source holds the bytes, the feed loop feeds exactly those the width needs. -/
theorem readExtractsField : Obligations.ReadExtractsField := by
  intro s n rev hf h1 h32 k henough
  exact exec_read_value hf (readField_value h1 h32 rev henough)

/-- Settles O20: the free `PENDING` is at most 64 by its type. -/
theorem readAtEndOfStream : Obligations.ReadAtEndOfStream :=
  fun s _ rev hf h1 h32 hpos hshort =>
    ⟨Config.freeWindow s.freeCount, (Config.freePending s.freeCount).val,
      Nat.le_of_lt_succ (Config.freePending s.freeCount).isLt, exec_read_spent hf h1 h32 rev hpos hshort⟩

/-- The outcomes of two READs that the reader determines: the same fault at the same place, or the same value and the
same reader (R105). -/
structure SameRead (t t' : State) : Prop where
  fault : t'.fault = t.fault
  raised : t.fault = true → t'.cause = t.cause ∧ t'.faultInfo = t.faultInfo ∧ t'.bsr.pos = t.bsr.pos
  value : t.fault = false → t'.bsr = t.bsr ∧ t'.result = t.result

/-- Two unlatched states with the same reader answer a READ alike, in each of its three outcomes. -/
theorem sameRead_exec_read {s s' : State} (hf : s.fault = false) (hf' : s'.fault = false) (hr : s'.bsr = s.bsr)
    (n : Nat) (rev : Bool) :
    ∃ t t', exec (.read n rev) s = .next t ∧ exec (.read n rev) s' = .next t' ∧ SameRead t t' := by
  by_cases hn : 1 ≤ n ∧ n ≤ 32
  · obtain ⟨h1, h32⟩ := hn
    rcases readField_legal s rev h1 h32 with ⟨q, hq, -⟩ | ⟨q, hq, -⟩
    · have hq' : s'.bsr.fill n rev n = .filled q := by rw [hr, hq]
      refine ⟨_, _, exec_read_filled hf h1 h32 hq, exec_read_filled hf' h1 h32 hq', ?_⟩
      exact ⟨hf'.trans hf.symm, fun hraised => absurd (hf.symm.trans hraised) nofun, fun _ => ⟨rfl, rfl⟩⟩
    · have hq' : s'.bsr.fill n rev n = .exhausted q := by rw [hr, hq]
      refine ⟨_, _, exec_read_exhausted hf h1 h32 hq, exec_read_exhausted hf' h1 h32 hq', ?_⟩
      exact ⟨rfl, fun _ => ⟨rfl, rfl, rfl⟩, nofun⟩
  · have hillegal : n < 1 ∨ 32 < n := by omega
    refine ⟨_, _, exec_read_raised hf (readField_illegal hillegal rev),
      exec_read_raised hf' (readField_illegal hillegal rev), ?_⟩
    exact ⟨rfl, fun _ => ⟨rfl, rfl, congrArg _ hr⟩, nofun⟩

/-- Settles O22, by `sameRead_exec_read`. -/
theorem readDeterminedByReader : Obligations.ReadDeterminedByReader := by
  intro s s' t t' n rev hf hf' hr ht ht'
  obtain ⟨u, u', hu, hu', hfault, hraised, hvalue⟩ := sameRead_exec_read hf hf' hr n rev
  obtain rfl : t = u := Host.Outcome.next.inj (ht.symm.trans hu)
  obtain rfl : t' = u' := Host.Outcome.next.inj (ht'.symm.trans hu')
  exact ⟨hfault, hraised, hvalue⟩

end Sys2Proof.Proofs
end

/-! ## INIT (40_bitstream_reader.md R102) -/

section
namespace Sys2Proof.Proofs

open Sys2Proof.Machine

theorem status_beginSession (s : State) (bytes : List Byte) : (s.beginSession bytes).status = 0 := by
  rw [State.status, State.beginSession_cause, State.beginSession_emit, State.beginSession_fault, State.beginSession_ard]
  decide

/-- No bit is left in a session over no bytes. -/
theorem bitsLeft_fresh_nil : (Reader.fresh []).bitsLeft = 0 := rfl

/-- Settles O13: over no bytes no bit is left, so READ and NEXT run dry by `exec_read_spent` and `exec_next_shortId`. -/
theorem initStartsFreshSession : Obligations.InitStartsFreshSession := by
  intro s
  refine ⟨s.beginSession s.presented, exec_init s, rfl, status_beginSession s _, fun hempty => ?_⟩
  rw [hempty]
  refine ⟨fun n rev h1 h32 => ?_, ?_⟩
  · exact ⟨_, exec_read_spent (s := s.beginSession []) rfl h1 h32 rev le_rfl (bitsLeft_fresh_nil.trans_lt h1), rfl, rfl⟩
  · obtain ⟨q, -, hnext⟩ := exec_next_shortId (s := s.beginSession []) rfl rfl le_rfl (by
      rw [State.beginSession_bsr, bitsLeft_fresh_nil]; decide)
    exact ⟨_, hnext, rfl, rfl⟩

end Sys2Proof.Proofs
end

/-! ## Behind the latch the window is out of sight (40_bitstream_reader.md R110) -/

section
namespace Sys2Proof.Proofs

open Sys2Proof.Machine

/-- A step with a legal INIT waiting binds a fresh session over the bytes presented with it, in every state. -/
theorem step_init {s : State} {c : HostCommand} {rest : List HostCommand} (hc : s.commands = c :: rest)
    (hw : decode c.word = .ok .init) : step s = .next ((onPort s c rest).beginSession c.bytes) :=
  (step_legal hc hw).trans (exec_init _)

/-- Behind the latch, a step with any other word waiting clears `EMIT` and takes the command from the port: STAT by
R101, the rest by R166. -/
theorem step_latched {s : State} {c : HostCommand} {rest : List HostCommand} (hf : s.fault = true)
    (hc : s.commands = c :: rest) (hinit : decode c.word ≠ .ok .init) : step s = .next (onPort s c rest).refuse := by
  cases hw : decode c.word with
  | error e => exact (step_illegal hc hw).trans (congrArg _ (illegalWord_latched (by exact hf) c.word))
  | ok i =>
    rw [step_legal hc hw]
    by_cases hstat : i = .stat
    · rw [hstat, exec_stat]
    · exact exec_latched hf hstat fun heq => hinit (hw.trans (congrArg _ heq))

/-- The state with another `WINDOW`, another `PENDING` and another count of free values. -/
def withWindow (s : State) (window : Window) (pending freeCount : Nat) : State :=
  { s with bsr := { s.bsr with window := window, pending := pending }, freeCount := freeCount }

theorem sameButWindow_iff {s s' : State} :
    s.sameButWindow s' ↔ ∃ window pending freeCount, s' = withWindow s window pending freeCount :=
  ⟨fun h => ⟨_, _, _, h⟩, fun ⟨_, _, _, h⟩ => h ▸ rfl⟩

section Updates
variable {s s' : State} (h : s.sameButWindow s')
include h

theorem sameButWindow_refuse : s.refuse.sameButWindow s'.refuse := by
  obtain ⟨window, pending, freeCount, rfl⟩ := sameButWindow_iff.1 h
  rfl

theorem sameButWindow_onPort (c : HostCommand) (rest : List HostCommand) :
    (onPort s c rest).sameButWindow (onPort s' c rest) := by
  obtain ⟨window, pending, freeCount, rfl⟩ := sameButWindow_iff.1 h
  rfl

theorem sameButWindow_beginSession (bytes : List Byte) : (s.beginSession bytes).sameButWindow (s'.beginSession bytes) := by
  obtain ⟨window, pending, freeCount, rfl⟩ := sameButWindow_iff.1 h
  rfl

theorem hostView_eq_of_sameButWindow : s'.hostView = s.hostView := by
  obtain ⟨window, pending, freeCount, rfl⟩ := sameButWindow_iff.1 h
  rfl

theorem fault_eq_of_sameButWindow : s'.fault = s.fault := by
  obtain ⟨window, pending, freeCount, rfl⟩ := sameButWindow_iff.1 h
  rfl

theorem commands_eq_of_sameButWindow : s'.commands = s.commands := by
  obtain ⟨window, pending, freeCount, rfl⟩ := sameButWindow_iff.1 h
  rfl

/-- Two latched states that agree but for the window step to states that agree so; INIT, the only way out of the latch,
binds both readers afresh. -/
theorem sameButWindow_step (hf : s.fault = true) :
    ∃ t t', step s = .next t ∧ step s' = .next t' ∧ t.sameButWindow t' ∧ (t.fault = false → t'.bsr = t.bsr) := by
  have hf' : s'.fault = true := (fault_eq_of_sameButWindow h).trans hf
  have hcommands := commands_eq_of_sameButWindow h
  cases hc : s.commands with
  | nil =>
    exact ⟨s, s', step_nil hc, step_nil (hcommands.trans hc), h, fun hleft => absurd (hf.symm.trans hleft) nofun⟩
  | cons c rest =>
    have hport := sameButWindow_onPort h c rest
    have hc' := hcommands.trans hc
    by_cases hinit : decode c.word = .ok .init
    · exact ⟨_, _, step_init hc hinit, step_init hc' hinit, sameButWindow_beginSession hport c.bytes, fun _ => rfl⟩
    · exact ⟨_, _, step_latched hf hc hinit, step_latched hf' hc' hinit, sameButWindow_refuse hport,
        fun hleft => absurd (hf.symm.trans hleft) nofun⟩

end Updates

/-- Settles O47: the steps agree by `sameButWindow_step`, and the host's view has no part of the window. -/
theorem latchHidesWindow : Obligations.LatchHidesWindow := by
  intro s s' t hf h hstep
  obtain ⟨u, t', hu, hstep', htt, hleft⟩ := sameButWindow_step h hf
  obtain rfl : t = u := Host.Outcome.next.inj (hstep.symm.trans hu)
  exact ⟨t', hstep', htt, hostView_eq_of_sameButWindow htt, hleft⟩

end Sys2Proof.Proofs
end

/-! ## The entries of the constant data (41_record_decoder.md R131, R132) -/

section
namespace Sys2Proof.Proofs

open Sys2Proof.Machine

theorem attrWidth_eq_none {id : Nat} (h : 16 ≤ id) : attrWidth id = none := by
  rw [attrWidth, if_neg (by omega), if_neg (by omega), if_neg (by omega), if_neg (by omega), if_neg (by omega),
    if_neg (by omega)]

/-- The reference's table, one entry after the other. -/
theorem attrWidth_eq_getElem? (id : Nat) :
    attrWidth id = [10, 10, 10, 10, 10, 8, 21, 21, 21, 21, 21, 21, 7, 32, 25, 25][id]? := by
  rcases Nat.lt_or_ge id 16 with hlisted | hunlisted
  · interval_cases id <;> rfl
  · rw [attrWidth_eq_none hunlisted, List.getElem?_eq_none (by simpa using hunlisted)]

/-- The two faults that NEXT can enter (R133): its widths are legal, so `Read` never rejects one. -/
theorem performs_next_cause {s t : State} {w : CommandWord} (h : Performs s w t) (hw : decode w = .ok .next)
    (hf : s.fault = false) (ht : t.fault = true) : t.cause = .endOfStream ∨ t.cause = .unknownAttributeID := by
  cases h with
  | nextShortId | nextShortValue => exact .inl rfl
  | nextUnknown => exact .inr rfl
  | nextDone | nextTerminator | nextEmit => exact absurd (hf.symm.trans ht) nofun
  | refused hlatched => exact absurd (hf.symm.trans hlatched) nofun
  | stat h' | init h' | illegal _ h' | readWidth _ h' | readShort _ h' | readValue _ h' | bitrevWidth _ h'
  | bitrevValue _ h' => exact nomatch hw.symm.trans h'

/-- Settles O30: the machine's table is the reference's, and the causes of NEXT are those of `performs_next_cause`. -/
theorem widthTableEntries : Obligations.WidthTableEntries := by
  refine ⟨fun id => ?_, fun id w => legalWidth_of_widthOf, fun s t hf h ht => ?_⟩
  · rw [widthOf_eq_attrWidth, attrWidth_eq_getElem?]
  · have hnext : decode 0x4000 = .ok .next := by decide
    rcases performs_next_cause (execNext_performs hf hnext h) hnext hf ht with hcause | hcause <;> simp [hcause]

/-- Scaling loses nothing to the width of the word: a quotient is no larger than the value divided. -/
theorem scaleValue_toNat (id : AttrId) (v : Word32) : (scaleValue id v).toNat = emittedValue id.toNat v.toNat := by
  have hle : emittedValue id.toNat v.toNat ≤ v.toNat := by
    rw [emittedValue]
    split_ifs
    · exact Nat.div_le_self _ _
    · exact le_rfl
  rw [scaleValue_eq_emittedValue, BitVec.toNat_ofNat, Nat.mod_eq_of_lt (hle.trans_lt v.isLt)]

/-- Settles O31: the bounds are those of the quotient by 256. -/
theorem resourceScaling : Obligations.ResourceScaling := by
  refine ⟨scaleValue_toNat, fun id v h6 h11 => ?_⟩
  have hscaled : (scaleValue id v).toNat = v.toNat / 256 := (scaleValue_toNat id v).trans (if_pos ⟨h6, h11⟩)
  refine ⟨fun hraw => by omega, fun hraw => BitVec.eq_of_toNat_eq ?_⟩
  rw [hscaled, Nat.div_eq_of_lt hraw]
  rfl

end Sys2Proof.Proofs
end

/-! ## The next state of NEXT, field by field (41_record_decoder.md R133 to R137) -/

section
namespace Sys2Proof.Proofs

open Sys2Proof.Machine

/-- All of a reader that took `n` bits but its window. -/
theorem TakesBits.eq_withWindow {n : Nat} {r r' : Reader} (h : TakesBits n r r') :
    r' = { window := r'.window, pending := r.pending + 8 * feedsNeeded n r.pending - n, src := r.src,
           pos := r.pos + feedsNeeded n r.pending } := by
  rw [← h.pending, ← h.src, ← h.pos]

/-- Where more bits are left than are pending, there is a byte to pull. -/
theorem pos_le_of_bitsLeft {r : Reader} {n : Nat} (hr : r.pending ≤ 7) (henough : n ≤ r.bitsLeft) (hn : 9 ≤ n) :
    r.pos ≤ r.src.length := by
  simp only [Reader.bitsLeft] at henough
  omega

/-- Settles O24, by `exec_next_emit`: the reader took the record's bits, and the pair is the emitted one. -/
theorem nextEmitsRecord : Obligations.NextEmitsRecord := by
  rintro s id w hf ha hr rfl hwidth henough value k
  obtain ⟨r, htakes, hnext⟩ := exec_next_emit hf ha (pos_le_of_bitsLeft hr henough (by omega)) hr hwidth henough
  refine ⟨_, hnext, ?_, htakes.bitAhead⟩
  exact congrArg (fun q => State.emitPair { s with bsr := q } _ value) htakes.eq_withWindow

/-- Settles O25, by `exec_next_terminator`. -/
theorem nextStopsAtTerminator : Obligations.NextStopsAtTerminator := by
  intro s hf ha hr hterm hid k
  obtain ⟨r, htakes, hnext⟩ := exec_next_terminator hf ha (pos_le_of_bitsLeft hr hid le_rfl) hr hid hterm
  refine ⟨_, hnext, ?_, htakes.bitAhead⟩
  exact congrArg (fun q => { s with bsr := q, ard := .done, emit := false }) htakes.eq_withWindow

/-- A `Read` that ran the reader dry: the source is spent, and of the rest only the latch and `EMIT` are written
(R110, R165). -/
theorem ranDry_eq_of_spent {s : State} {r q : Reader} (n : Nat) (hsrc : q.src = s.bsr.src)
    (hpos : q.pos = s.bsr.src.length) :
    ranDry { s with bsr := r } q n = { s with
      bsr := { window := (ranDry { s with bsr := r } q n).bsr.window
               pending := (ranDry { s with bsr := r } q n).bsr.pending
               src := s.bsr.src, pos := s.bsr.src.length }
      fault := true, cause := .endOfStream, faultInfo := BitVec.ofNat 32 n, emit := false
      freeCount := (ranDry { s with bsr := r } q n).freeCount } := by
  rw [← hpos, ← hsrc]
  rfl

/-- Settles O27: the source ends in the ID, or after the ID in the value; either feed loop has pulled every byte. -/
theorem nextAtEndOfStream : Obligations.NextAtEndOfStream := by
  rintro s wanted hf ha hr hpos (⟨hshort, rfl⟩ | ⟨hid, hwidth, hshort⟩)
  · obtain ⟨q, hq, hnext⟩ := exec_next_shortId hf ha hpos hshort
    obtain ⟨hsrc, -, hend⟩ := fill_exhausted hq
    exact ⟨_, hnext, ranDry_eq_of_spent 9 hsrc (hend hpos)⟩
  · obtain ⟨r, q, htakes, hq, hnext⟩ := exec_next_shortValue hf ha hpos hr hid hwidth hshort
    obtain ⟨hsrc, -, hend⟩ := fill_exhausted hq
    have hspent : q.pos = s.bsr.src.length := (hend (htakes.pos_le hpos hid)).trans (congrArg _ htakes.src)
    exact ⟨_, hnext, ranDry_eq_of_spent wanted (hsrc.trans htakes.src) hspent⟩

/-- Settles O28: NEXT in Done is `State.refuse`. -/
theorem nextAfterDoneIsIdle : Obligations.NextAfterDoneIsIdle :=
  fun _ hf ha => exec_next_done hf ha

end Sys2Proof.Proofs
end

/-! ## The ARD state machine (41_record_decoder.md R130) -/

section
namespace Sys2Proof.Proofs

open Sys2Proof.Machine

/-- `ARD_STATE` after a command: Reading by INIT, Done by the NEXT that meets the terminator, and otherwise kept; only
from Reading is a pair emitted. -/
theorem performs_ard {s t : State} {w : CommandWord} (h : Performs s w t) :
    (decode w = .ok .init ∧ t.ard = .reading ∧ t.fault = false ∧ t.emit = false) ∨
      (decode w = .ok .next ∧ s.ard = .reading ∧ s.fault = false ∧ t.ard = .done ∧ t.fault = false ∧
        t.emit = false) ∨
      (decode w ≠ .ok .init ∧ t.ard = s.ard ∧ (t.emit = true → s.ard = .reading)) := by
  cases h with
  | init hw => exact .inl ⟨hw, rfl, rfl, rfl⟩
  | nextTerminator hf hw ha => exact .inr (.inl ⟨hw, ha, hf, rfl, hf, rfl⟩)
  | nextEmit _ hw ha => exact .inr (.inr ⟨by simp [hw], rfl, fun _ => ha⟩)
  | refused _ _ hinit => exact .inr (.inr ⟨hinit, rfl, nofun⟩)
  | stat hw | illegal _ hw | readWidth _ hw | readShort _ hw | readValue _ hw | bitrevWidth _ hw | bitrevValue _ hw
  | nextDone _ hw | nextShortId _ hw | nextUnknown _ hw | nextShortValue _ hw =>
    exact .inr (.inr ⟨by simp [hw], rfl, nofun⟩)

/-- Settles O44, by the three cases of `performs_ard`. -/
theorem ardTransitions : Obligations.ArdTransitions := by
  intro s t c rest hc h
  rcases performs_ard (step_performs hc h) with
    ⟨hw, hard, hf, hemit⟩ | ⟨hw, hard, hf, hard', hf', hemit⟩ | ⟨hinit, hkept, hemits⟩
  · exact ⟨by simp [hard], fun _ _ => hw, fun _ => hard, by simp [hemit], by simp [hf]⟩
  · exact ⟨fun _ _ => ⟨hw, hf, hf', hemit⟩, by simp [hard'], by simp [hw], by simp [hemit], by simp [hf']⟩
  · simp only [onPort] at hkept hemits
    exact ⟨fun hs ht => by simp [hkept, hs] at ht, fun hs ht => by simp [hkept, hs] at ht, fun hw => absurd hw hinit,
      fun he => ⟨hemits he, hkept.trans (hemits he)⟩, fun _ _ => hkept⟩

end Sys2Proof.Proofs
end

/-! ## A session ends (41_record_decoder.md R139)

Every emitting NEXT spends a record's bits, at least 16 of them; once the session has ended, NEXT changes nothing that
counts. -/

section
namespace Sys2Proof.Proofs

open Sys2Proof.Machine

/-- The session has reached Done or a fault (R139). -/
def Ended (s : State) : Prop := s.ard = .done ∨ s.fault = true

/-- A session that has ended stays so under NEXT, with the pairs it emitted (R137, R166). -/
theorem exec_next_ended {s : State} (h : Ended s) : exec .next s = .next s.refuse := by
  cases hf : s.fault with
  | true => exact exec_latched hf nofun nofun
  | false =>
    rcases h with hdone | hlatched
    · exact exec_next_done hf hdone
    · exact absurd (hf.symm.trans hlatched) nofun

/-- A field taken leaves its bits fewer. -/
theorem bitsLeft_tookField {s : State} {n : Nat} {rev : Bool} {q : Reader} (h : s.bsr.fill n rev n = .filled q)
    (hpos : s.bsr.pos ≤ s.bsr.src.length) : (tookField s q n).bsr.bitsLeft + n = s.bsr.bitsLeft := by
  have hlive := le_pending_of_filled h
  obtain ⟨hsrc, hfed, hpending, hbound⟩ := fill_filled_counts h
  have hle := hbound hpos
  simp only [tookField, Reader.bitsLeft, Reader.consume_pending, Reader.consume_src, Reader.consume_pos, hsrc]
  omega

/-- A NEXT ends the session and emits nothing, or emits a pair and has spent at least 16 bits: 9 of the ID and 7 of the
narrowest value (R139). -/
theorem performs_next_spends {s t : State} {w : CommandWord} (h : Performs s w t) (hw : decode w = .ok .next)
    (hpos : s.bsr.pos ≤ s.bsr.src.length) :
    (Ended t ∧ t.outSeq = s.outSeq) ∨
      (t.bsr.pos ≤ t.bsr.src.length ∧ t.outSeq.length = s.outSeq.length + 1 ∧
        t.bsr.bitsLeft + 16 ≤ s.bsr.bitsLeft) := by
  cases h with
  | nextDone _ _ ha => exact .inl ⟨.inl ha, rfl⟩
  | refused hf => exact .inl ⟨.inr hf, rfl⟩
  | nextTerminator => exact .inl ⟨.inl rfl, rfl⟩
  | nextShortId | nextUnknown | nextShortValue => exact .inl ⟨.inr rfl, rfl⟩
  | @nextEmit q p n _ _ _ hq _ hwidth hp =>
    have hpos' := (advances_tookField hq).pos_le_length hpos
    have hid := bitsLeft_tookField hq hpos
    have hvalue := bitsLeft_tookField (s := tookField s q 9) hp hpos'
    have hseven := (legalWidth_of_widthOf hwidth).1
    refine .inr ⟨(advances_tookField (s := tookField s q 9) hp).pos_le_length hpos', by simp [tookField], ?_⟩
    rw [State.emitPair_bsr]
    omega
  | stat h' | init h' | illegal _ h' | readWidth _ h' | readShort _ h' | readValue _ h' | bitrevWidth _ h'
  | bitrevValue _ h' => exact nomatch hw.symm.trans h'

/-! ### Runs of NEXTs -/

/-- The host has issued `k` NEXTs and nothing else. -/
def AwaitsNexts (k : Nat) (s : State) : Prop := s.commands = List.replicate k (commandOf .next 0 [])

/-- The state in which the oldest of `k + 1` NEXTs is performed. -/
def onNextPort (s : State) (k : Nat) : State :=
  onPort s (commandOf .next 0 []) (List.replicate k (commandOf .next 0 []))

/-- NEXT stops the machine in no state (R168). -/
theorem exec_next_answers (s : State) : ∃ t, exec .next s = .next t := ⟨_, rfl⟩

theorem run_of_step {s t : State} (h : step s = .next t) (k : Nat) : core.run (k + 1) s = core.run k t := by
  simp only [Host.Core.run, show core.step s = .next t from h]

/-- The first of `k + 1` NEXTs is performed, and `k` are left. -/
theorem run_next {k : Nat} {s : State} (hc : AwaitsNexts (k + 1) s) :
    ∃ t, exec .next (onNextPort s k) = .next t ∧ AwaitsNexts k t ∧ core.run (k + 1) s = core.run k t := by
  obtain ⟨t, ht⟩ := exec_next_answers (onNextPort s k)
  exact ⟨t, ht, (samePort_exec ht).commands, run_of_step ((step_legal hc (by decide)).trans ht) k⟩

/-- NEXTs after the session's end emit nothing. -/
theorem run_nexts_ended (k : Nat) {s : State} (hc : AwaitsNexts k s) (h : Ended s) :
    ∃ t, core.run k s = .next t ∧ Ended t ∧ t.outSeq = s.outSeq := by
  induction k generalizing s with
  | zero => exact ⟨s, rfl, h, rfl⟩
  | succ k ih =>
    obtain ⟨t, ht, hawaits, hrun⟩ := run_next hc
    rw [exec_next_ended (s := onNextPort s k) h] at ht
    cases ht
    rw [hrun]
    exact ih hawaits h

/-- `k` NEXTs end a session that has fewer than `16 * k` bits left, and each pair they emit has spent 16 (R139). -/
theorem run_nexts_ends (k : Nat) {s : State} (hc : AwaitsNexts k s) (hpos : s.bsr.pos ≤ s.bsr.src.length)
    (hfew : s.bsr.bitsLeft < 16 * k) :
    ∃ t, core.run k s = .next t ∧ Ended t ∧ 16 * t.outSeq.length ≤ 16 * s.outSeq.length + s.bsr.bitsLeft := by
  induction k generalizing s with
  | zero => omega
  | succ k ih =>
    obtain ⟨t, ht, hawaits, hrun⟩ := run_next hc
    have hnext : decode (encode .next) = .ok .next := by decide
    rw [hrun]
    rcases performs_next_spends (exec_performs hnext ht) hnext hpos with
      ⟨hended, hkept⟩ | ⟨hpos', hemitted, hspent⟩
    · obtain ⟨u, hu, huEnded, hsame⟩ := run_nexts_ended k hawaits hended
      refine ⟨u, hu, huEnded, ?_⟩
      rw [hsame, hkept]
      exact Nat.le_add_right _ _
    · simp only [onNextPort, onPort] at hemitted hspent
      obtain ⟨u, hu, huEnded, hbound⟩ := ih hawaits hpos' (by omega)
      exact ⟨u, hu, huEnded, by omega⟩

/-- Settles O50: INIT leaves `8 * L` bits, fewer than `16 * (floor(L / 2) + 1)`. -/
theorem sessionEndsInBoundedNexts : Obligations.SessionEndsInBoundedNexts := by
  intro s bytes hc
  have hinit := step_init hc (by decide : decode (encode .init) = .ok .init)
  have hbits : (Reader.fresh bytes).bitsLeft = 8 * bytes.length := by
    simp [Reader.bitsLeft]
  obtain ⟨t, hrun, hended, hpairs⟩ := run_nexts_ends (sessionBound bytes)
    (s := State.beginSession (onPort s (commandOf .init 0 bytes) _) bytes) rfl (Nat.zero_le _) (by
      rw [State.beginSession_bsr, hbits, sessionBound]
      omega)
  refine ⟨t, (run_of_step hinit _).trans hrun, hended, ?_⟩
  rw [State.beginSession_bsr, hbits, State.beginSession_outSeq, List.length_nil] at hpairs
  omega

end Sys2Proof.Proofs
end

/-! ## Entering the fault state (60_exceptions.md R160 to R165) -/

section
namespace Sys2Proof.Proofs

open Sys2Proof.Machine

/-- The causes that performing the word `w` can report, each with the information word it comes with (R160). -/
inductive Reports (w : CommandWord) : Cause → Word32 → Prop
  | illegal {e : Illegal} (hw : decode w = .error e) : Reports w .illegalCommand (w.setWidth 32)
  | readWidth {n : Nat} {rev : Bool} (hw : decode w = .ok (.read n rev)) (hn : n < 1 ∨ 32 < n) :
      Reports w .preconditionViolation (widthInfo n)
  | readShort {n : Nat} {rev : Bool} (hw : decode w = .ok (.read n rev)) (h1 : 1 ≤ n) (h32 : n ≤ 32) :
      Reports w .endOfStream (widthInfo n)
  | bitrevWidth {n : Nat} (hw : decode w = .ok (.bitrev n)) (hn : n < 1 ∨ 32 < n) :
      Reports w .preconditionViolation (widthInfo n)
  | nextShortId (hw : decode w = .ok .next) : Reports w .endOfStream (widthInfo 9)
  | nextShortValue {id : AttrId} {n : Nat} (hw : decode w = .ok .next) (hwidth : widthOf id = some n) :
      Reports w .endOfStream (widthInfo n)
  | nextUnknown {id : AttrId} (hw : decode w = .ok .next) (hid : id ≠ literals.terminatorId)
      (hwidth : widthOf id = none) : Reports w .unknownAttributeID (id.setWidth 32)

/-- `t` is the state in which performing `w` from `s` entered the fault state: besides fault entry, only the reader (not
its source) and the model's counter may have changed (R165). -/
structure EntersFault (s : State) (w : CommandWord) (t : State) : Prop where
  raised : t = State.raiseFault { s with bsr := t.bsr, freeCount := t.freeCount } t.cause t.faultInfo
  src : t.bsr.src = s.bsr.src
  reports : Reports w t.cause t.faultInfo

/-- All that a command which enters the fault state can have done: the other ways to end leave the latch clear. -/
theorem performs_entersFault {s t : State} {w : CommandWord} (h : Performs s w t) (hf : s.fault = false)
    (ht : t.fault = true) : EntersFault s w t := by
  cases h with
  | illegal _ hw => exact ⟨rfl, rfl, .illegal hw⟩
  | readWidth _ hw hn => exact ⟨rfl, rfl, .readWidth hw hn⟩
  | readShort _ hw h1 h32 hq => exact ⟨rfl, (advances_ranDry hq).src, .readShort hw h1 h32⟩
  | bitrevWidth _ hw hn => exact ⟨rfl, rfl, .bitrevWidth hw hn⟩
  | nextShortId _ hw _ hq => exact ⟨rfl, (advances_ranDry hq).src, .nextShortId hw⟩
  | nextUnknown _ hw _ hq hid hwidth => exact ⟨rfl, (advances_tookField hq).src, .nextUnknown hw hid hwidth⟩
  | nextShortValue _ hw _ hq _ hwidth hp =>
    have hadv := (advances_tookField hq).trans (advances_ranDry (s := tookField s _ 9) hp)
    exact ⟨rfl, hadv.src, .nextShortValue hw hwidth⟩
  | init => exact nomatch ht
  | stat | refused | readValue | bitrevValue | nextDone | nextTerminator | nextEmit =>
    exact absurd (hf.symm.trans ht) nofun

/-- A step enters the fault state only by a command. -/
theorem step_entersFault {s t : State} (h : step s = .next t) (hf : s.fault = false) (ht : t.fault = true) :
    ∃ c rest, s.commands = c :: rest ∧ EntersFault (onPort s c rest) c.word t := by
  rcases step_cases h with ⟨-, rfl⟩ | ⟨c, rest, hc, hperf⟩
  · exact absurd (hf.symm.trans ht) nofun
  · exact ⟨c, rest, hc, performs_entersFault hperf hf ht⟩

/-- Settles O39: fault entry writes the latch and `EMIT` alone, and no reader on its way there has another source. -/
theorem faultEntryKeepsOutputs : Obligations.FaultEntryKeepsOutputs := by
  intro s t hf h ht
  obtain ⟨c, rest, -, hraised, hsrc, -⟩ := step_entersFault h hf ht
  rw [hraised]
  exact ⟨rfl, rfl, rfl, rfl, rfl, rfl, hsrc⟩

/-- An ID that is neither the terminator nor in the table lies between the two (R162). -/
theorem unlisted_bounds {id : AttrId} (hid : id ≠ literals.terminatorId) (hwidth : widthOf id = none) :
    16 ≤ id.toNat ∧ id.toNat ≤ 510 := by
  rw [widthOf_eq_attrWidth, attrWidth_eq_getElem?, List.getElem?_eq_none_iff] at hwidth
  have hterm : id.toNat ≠ 511 := fun heq => hid (BitVec.eq_of_toNat_eq heq)
  exact ⟨hwidth, by omega⟩

/-- Settles O40: each report of `Reports` is one that the statement allows its word. -/
theorem faultCausesAndInfo : Obligations.FaultCausesAndInfo := by
  intro s t c rest hc hf h ht
  obtain ⟨-, -, hreports⟩ := performs_entersFault (step_performs hc h) hf ht
  generalize t.cause = cause, t.faultInfo = info at hreports ⊢
  cases hreports with
  | illegal hw => rw [hw]; exact ⟨rfl, rfl⟩
  | readWidth hw hn => rw [hw]; exact ⟨rfl, .inl ⟨rfl, by omega⟩⟩
  | readShort hw h1 h32 => rw [hw]; exact ⟨rfl, .inr ⟨rfl, h1, h32⟩⟩
  | bitrevWidth hw hn => rw [hw]; exact ⟨rfl, rfl, by omega⟩
  | nextShortId hw => rw [hw]; exact .inl ⟨rfl, .inl rfl⟩
  | @nextShortValue id n hw hwidth =>
    rw [hw]
    exact .inl ⟨rfl, .inr ⟨id.toNat, n, (widthOf_eq_attrWidth id).symm.trans hwidth, rfl⟩⟩
  | @nextUnknown id hw hid hwidth =>
    have hinfo : (id.setWidth 32).toNat = id.toNat := BitVec.toNat_setWidth_of_le (by decide)
    rw [hw]
    refine .inr ⟨rfl, ?_⟩
    rw [hinfo]
    exact unlisted_bounds hid hwidth

/-- Settles O26, by `exec_next_unknown`: an ID from 16 on is not in the table, one up to 510 is not the terminator. -/
theorem nextRejectsUnknownId : Obligations.NextRejectsUnknownId := by
  rintro s id hf ha hr rfl h16 h510 hid k
  obtain ⟨r, htakes, hnext⟩ := exec_next_unknown hf ha (pos_le_of_bitsLeft hr hid le_rfl) hr hid (by omega)
    (attrWidth_eq_none h16)
  refine ⟨_, hnext, ?_, htakes.bitAhead⟩
  exact congrArg (fun q => State.raiseFault { s with bsr := q } .unknownAttributeID _) htakes.eq_withWindow

/-- Settles O15: the width is checked before any other effect. -/
theorem illegalWidthRaises : Obligations.IllegalWidthRaises := by
  intro s n hf hn
  have hillegal : n < 1 ∨ 32 < n := by omega
  have hcheck : legalWidth n ≠ true := fun hlegal => by
    have := (legalWidth_iff n).1 hlegal
    omega
  exact ⟨fun rev => exec_read_raised hf (readField_illegal hillegal rev), exec_bitrev_illegal hf hcheck⟩

end Sys2Proof.Proofs
end

/-! ## The fault latch and the step (60_exceptions.md R165 to R168) -/

section
namespace Sys2Proof.Proofs

open Sys2Proof.Machine

/-- Settles O38: behind the latch a step waits, performs INIT (`step_init`), or refuses (`step_latched`). -/
theorem latchLeftOnlyByInit : Obligations.LatchLeftOnlyByInit := by
  intro s t hf h
  cases hc : s.commands with
  | nil =>
    obtain rfl : s = t := Host.Outcome.next.inj ((step_nil hc).symm.trans h)
    exact .inl ⟨hf, rfl, rfl⟩
  | cons c rest =>
    by_cases hinit : decode c.word = .ok .init
    · rw [step_init hc hinit] at h
      cases h
      exact .inr ⟨rfl, c, rest, rfl, hinit⟩
    · rw [step_latched hf hc hinit] at h
      cases h
      exact .inl ⟨hf, rfl, rfl⟩

/-- Settles O10, by `step_latched`. -/
theorem latchRefusesCommands : Obligations.LatchRefusesCommands :=
  fun _ _ _ hc hf _ hinit => ⟨_, step_latched hf hc hinit, rfl⟩

/-- Settles O7, by `step_legal`. -/
theorem stepRunsDecodedCommand : Obligations.StepRunsDecodedCommand :=
  fun _ _ _ _ hc hw => step_legal hc hw

/-- No command stops the machine: its faults are next states (R165). -/
theorem exec_answers (i : Instr) (s : State) : ∃ t, exec i s = .next t := by
  cases i with
  | stat => exact ⟨_, exec_stat s⟩
  | init => exact ⟨_, exec_init s⟩
  | read n rev => exact ⟨_, rfl⟩
  | bitrev n => exact ⟨_, rfl⟩
  | next => exact exec_next_answers s

/-- No step stops the machine: it waits, performs a command, or performs an illegal word (R168). -/
theorem step_answers (s : State) : ∃ t, step s = .next t := by
  cases hc : s.commands with
  | nil => exact ⟨s, step_nil hc⟩
  | cons c rest =>
    cases hw : decode c.word with
    | error e => exact ⟨_, step_illegal hc hw⟩
    | ok i =>
      rw [step_legal hc hw]
      exact exec_answers i _

/-- Settles O9, by `step_answers` and `exec_answers`. -/
theorem everyStepAnswersNext : Obligations.EveryStepAnswersNext :=
  ⟨step_answers, exec_answers⟩

end Sys2Proof.Proofs
end

/-! ## Several instances (60_exceptions.md R172) -/

section
namespace Sys2Proof.Proofs

open Sys2Proof.Machine

theorem stepInstance_none {k : Nat} {m : Instances} (hk : m[k]? = none) : stepInstance k m = .next m := by
  simp only [stepInstance, hk]

/-- Stepping one of them replaces it by its own next state. -/
theorem stepInstance_some {k : Nat} {m : Instances} {s t : State} (hk : m[k]? = some s) (h : step s = .next t) :
    stepInstance k m = .next (m.set k t) := by
  simp only [stepInstance, hk, h]

/-- Settles O48: one place of the list is set, to the next state of what stood there. -/
theorem instancesAreIndependent : Obligations.InstancesAreIndependent := by
  intro k m m' h
  cases hk : m[k]? with
  | none =>
    rw [stepInstance_none hk] at h
    cases h
    exact ⟨fun _ _ => rfl, nofun⟩
  | some s =>
    obtain ⟨t, ht⟩ := step_answers s
    rw [stepInstance_some hk ht] at h
    cases h
    obtain ⟨hlt, -⟩ := List.getElem?_eq_some_iff.1 hk
    refine ⟨fun j hj => List.getElem?_set_ne hj.symm, ?_⟩
    rintro _ ⟨⟩
    exact ⟨t, ht, List.getElem?_set_self hlt⟩

end Sys2Proof.Proofs
end

/-! ## Reset (70_reset_and_hazards.md R190, R191) -/

section
namespace Sys2Proof.Proofs

open Sys2Proof.Machine

/-- The state after reset is one in which INIT has just bound no bytes (R190). -/
theorem reset_eq_beginSession : State.reset = State.reset.beginSession [] := rfl

/-- INIT with no bytes presented gives every element its reset value; the host port and the model's counter stay
(R190). -/
theorem beginSession_nil (s : State) :
    s.beginSession [] = { State.reset with
      din := s.din, presented := s.presented, commands := s.commands, freeCount := s.freeCount } := rfl

/-- Settles O8, by `step_nil`. -/
theorem stepWaitsForTheHost : Obligations.StepWaitsForTheHost :=
  fun _ hc => step_nil hc

/-- Settles O33: the reset values are read off `State.reset`, and INIT of the empty source is `beginSession_nil`. -/
theorem resetValues : Obligations.ResetValues := by
  constructor
  · rintro s rfl
    refine ⟨rfl, rfl, rfl, rfl, rfl, rfl, rfl, rfl, rfl, rfl, rfl, rfl, ?_, rfl⟩
    rw [reset_eq_beginSession, status_beginSession]
  · intro s hempty
    refine ⟨s.beginSession [], ?_, beginSession_nil s⟩
    rw [exec_init, hempty]

/-- Settles O35: the invariant holds of every fresh session. -/
theorem resetMeetsInv : Obligations.ResetMeetsInv := by
  unfold Obligations.ResetMeetsInv
  rw [reset_eq_beginSession]
  exact inv_beginSession State.reset []

/-- Settles O34: the reader of reset has no bit left, so READ and NEXT run dry; BITREV and STAT do not look at it. -/
theorem commandsBeforeFirstInit : Obligations.CommandsBeforeFirstInit := by
  intro s hreset hf ha
  have hbsr : s.bsr = Reader.fresh [] := hreset
  have hpos : s.bsr.pos ≤ s.bsr.src.length := by rw [hbsr]; exact le_rfl
  have hleft : s.bsr.bitsLeft = 0 := by rw [hbsr, bitsLeft_fresh_nil]
  refine ⟨fun n rev h1 h32 => ?read, ?next, fun n h1 h32 => ?bitrev, exec_stat s⟩
  case read => exact ⟨_, exec_read_spent hf h1 h32 rev hpos (hleft.trans_lt h1), rfl, rfl, rfl⟩
  case next =>
    obtain ⟨q, -, hnext⟩ := exec_next_shortId hf ha hpos (hleft.trans_lt (by decide))
    exact ⟨_, hnext, rfl, rfl, rfl⟩
  case bitrev => exact exec_bitrev_legal hf ((legalWidth_iff n).2 ⟨h1, h32⟩)

end Sys2Proof.Proofs
end

/-! ## NEXT reads nothing of the host port (41_record_decoder.md R133)

Its next state on another port is its next state, on that port. -/

section
namespace Sys2Proof.Proofs

open Sys2Proof.Machine

/-- `Read` ends on every port as it does on the present one. -/
theorem readField_onPort (s : State) (c : HostCommand) (rest : List HostCommand) (n : Nat) (rev : Bool) :
    (∃ v u, s.readField n rev = .value v u ∧ (onPort s c rest).readField n rev = .value v (onPort u c rest)) ∨
      (∃ u, s.readField n rev = .raised u ∧ (onPort s c rest).readField n rev = .raised (onPort u c rest)) := by
  rcases readField_cases s n rev with ⟨hn, hr⟩ | ⟨h1, h32, q, hq, -, -, hr⟩ | ⟨h1, h32, q, hq, -, -, hr⟩
  · exact .inr ⟨_, hr, readField_illegal hn rev⟩
  · exact .inl ⟨_, _, hr, readField_filled (s := onPort s c rest) h1 h32 hq⟩
  · exact .inr ⟨_, hr, readField_exhausted (s := onPort s c rest) h1 h32 hq⟩

theorem nextRecord_onPort (s : State) (c : HostCommand) (rest : List HostCommand) (id : AttrId) :
    nextRecord id (onPort s c rest) = onPort (nextRecord id s) c rest := by
  by_cases hid : id = literals.terminatorId
  · rw [hid, nextRecord_terminator, nextRecord_terminator]
    rfl
  cases hwidth : widthOf id with
  | none =>
    rw [nextRecord_unknown hid hwidth, nextRecord_unknown hid hwidth]
    rfl
  | some w =>
    rw [nextRecord_known hid hwidth, nextRecord_known hid hwidth]
    rcases readField_onPort s c rest w true with ⟨v, u, hr, hr'⟩ | ⟨u, hr, hr'⟩
    · rw [nextValue_value hr, nextValue_value hr']
      rfl
    · rw [nextValue_raised hr, nextValue_raised hr']

theorem exec_next_onPort {s t : State} (c : HostCommand) (rest : List HostCommand) (h : exec .next s = .next t) :
    exec .next (onPort s c rest) = .next (onPort t c rest) := by
  by_cases hended : Ended s
  · rw [exec_next_ended hended] at h
    cases h
    exact exec_next_ended (s := onPort s c rest) hended
  obtain ⟨hdone, hlatched⟩ := not_or.1 hended
  have hf : s.fault = false := Bool.eq_false_of_not_eq_true hlatched
  have ha : s.ard = .reading := by
    cases ha : s.ard with
    | reading => rfl
    | done => contradiction
  rcases readField_onPort s c rest 9 true with ⟨v, u, hr, hr'⟩ | ⟨u, hr, hr'⟩
  · rw [exec_next_value hf ha hr] at h
    cases h
    rw [exec_next_value (s := onPort s c rest) hf ha hr', nextRecord_onPort]
  · rw [exec_next_raised hf ha hr] at h
    cases h
    exact exec_next_raised (s := onPort s c rest) hf ha hr'

end Sys2Proof.Proofs
end

/-! ## The observation of a session (70_reset_and_hazards.md R200)

Over a queue of NEXTs the observation is the end that the host's loop of R192 sees, which `decodeLoop_eq_recordStream`
compares with the record stream. -/

section
namespace Sys2Proof.Proofs

open Sys2Proof.Machine

/-! ### One step of the observation, and one turn of the host's loop -/

theorem sessionEnd_fault {s t : State} (hf : s.fault = false) (ht : t.fault = true) :
    sessionEnd s t = .failure t.cause.code t.faultInfo :=
  if_pos ⟨hf, ht⟩

theorem sessionEnd_done {s t : State} (ha : s.ard = .reading) (hft : t.fault = false) (hat : t.ard = .done) :
    sessionEnd s t = .success t.outSeq := by
  simp [sessionEnd, hft, ha, hat]

theorem sessionEnd_reading {s t : State} (hft : t.fault = false) (hat : t.ard = .reading) :
    sessionEnd s t = .notEnded := by
  simp [sessionEnd, hft, hat]

/-- A step that ends the session is what is observed; after any other the observation goes on. -/
theorem observeSession_step {s t : State} (hinit : s.initIsNext = false) (h : step s = .next t) (fuel : Nat) :
    observeSession (fuel + 1) s =
      if sessionEnd s t = .notEnded then observeSession fuel t else sessionEnd s t := by
  simp only [observeSession, hinit, h]
  cases sessionEnd s t <;> rfl

/-- One turn of the host's loop that ends nothing: the loop goes on, with or without another pair. -/
theorem decodeLoop_reading {s t : State} (h : s.perform (commandOf .next 0 []) = .next t) (hf : t.fault = false)
    (ha : t.ard = .reading) (fuel : Nat) (taken : List Pair) :
    ∃ taken', decodeLoop (fuel + 1) s taken = decodeLoop fuel t taken' := by
  cases he : t.emit with
  | true => exact ⟨_, decodeLoop_emit h fuel taken hf ha he⟩
  | false =>
    refine ⟨taken, ?_⟩
    simp only [decodeLoop, h, status_fault, status_done, status_emit, hf, ha, he, ArdState.doneBit,
      Bool.false_eq_true, if_false]

/-! ### A queue of NEXTs -/

theorem initIsNext_of_awaitsNexts {k : Nat} {s : State} (hc : AwaitsNexts (k + 1) s) : s.initIsNext = false := by
  have hcons : s.commands = commandOf .next 0 [] :: List.replicate k (commandOf .next 0 []) := hc
  have hnext : decode (commandOf .next 0 []).word = .ok .next := by decide
  simp only [State.initIsNext, hcons, hnext]

/-- Over `k` NEXTs issued at once the session is observed to end as the host's loop sees it end, which issues them one
at a time. -/
theorem observeSession_eq_decodeLoop (k : Nat) {s : State} (taken : List Pair) (hf : s.fault = false)
    (ha : s.ard = .reading) (hc : AwaitsNexts k s) :
    observeSession k s = (decodeLoop k (onNextPort s 0) taken).2 := by
  induction k generalizing s taken with
  | zero => rfl
  | succ k ih =>
    obtain ⟨t, ht⟩ := exec_next_answers s
    have hstep : step s = .next (onNextPort t k) := (step_legal hc (by decide)).trans (exec_next_onPort _ _ ht)
    have hturn : (onNextPort s 0).perform (commandOf .next 0 []) = .next (onNextPort t 0) :=
      (perform_next rfl).trans (exec_next_onPort (s := s) _ [] ht)
    rw [observeSession_step (initIsNext_of_awaitsNexts hc) hstep]
    cases hft : t.fault with
    | true =>
      rw [sessionEnd_fault (t := onNextPort t k) hf hft, decodeLoop_fault hturn _ _ hft]
      rfl
    | false =>
      cases hat : t.ard with
      | done =>
        rw [sessionEnd_done (t := onNextPort t k) ha hft hat, decodeLoop_done hturn _ _ hft hat]
        rfl
      | reading =>
        obtain ⟨taken', hloop⟩ := decodeLoop_reading hturn hft hat k taken
        rw [sessionEnd_reading (t := onNextPort t k) hft hat, if_pos rfl, hloop]
        exact ih (s := onNextPort t k) taken' hft hat rfl

/-- An unlatched Reading state with a fresh reader stands at bit 0, like the one INIT leaves. -/
theorem decodesFrom_fresh {s : State} {bytes : List Byte} (hbsr : s.bsr = Reader.fresh bytes) (ha : s.ard = .reading)
    (hf : s.fault = false) (hseq : s.outSeq = []) : DecodesFrom bytes 0 [] s where
  fault := hf
  ard := ha
  outSeq := hseq
  src := by rw [hbsr, Reader.fresh_src]
  pos_le := by rw [hbsr]; exact Nat.zero_le _
  reversed := hbsr ▸ pendingReversed_fresh bytes
  position := by rw [hbsr]; rfl

/-- Settles O52: the observation is the loop's end, and the loop follows the record stream. -/
theorem sessionObservation : Obligations.SessionObservation := by
  intro s bytes hbsr ha hf hseq hc
  have hplace := (decodesFrom_fresh hbsr ha hf hseq).onPort (commandOf .next 0 []) []
  rw [observeSession_eq_decodeLoop _ [] hf ha hc]
  exact congrArg Prod.snd (decodeLoop_eq_recordStream _ hplace rfl)

end Sys2Proof.Proofs
end
